-- ==== Sys2Proof/Word.lean ====
section
/-! DEFINITION. The words of the block: a byte, a 32-bit register, the 1-bit alpha flag, a 40-bit command
(00_scope.md R5, R6; 30_encoding.md R100). Every quantity of the block is unsigned (R6). -/

namespace Sys2Proof

/-- Eight bits, the unit of `IN` and `OUT` (20_memory.md R50, R58). -/
abbrev Byte := BitVec 8

/-- The width of `crc`, `a`, `b`, `RES`, `WIDTH`, `HEIGHT` and of a command's argument (00_scope.md R5). -/
abbrev Word := BitVec 32

/-- The width of `ALPHA` (10_state.md R27). -/
abbrev Flag := BitVec 1

/-- A command word: opcode in bits 39:32, argument in bits 31:0 (30_encoding.md R100). -/
abbrev Command := BitVec 40

/-- The input buffer's contents: (offset, byte) pairs in the canonical form of `Memory.wf`
(Sys2Proof/Machine/Ops.lean). -/
abbrev Memory := List Host.Cell

end Sys2Proof
end

