-- ==== Sys2Proof/Syntax.lean ====
section
/-! DEFINITION. The 22 commands of 30_encoding.md R101, one constructor per row of spec/opcode_table.json. An operand
has exactly the argument bits R102 gives it. -/

namespace Sys2Proof

/-- A decoded command (30_encoding.md R101, R102). -/
inductive Instr where
  /-- `CLR`: every register to its reset value (46_config_system.md R253). -/
  | clr
  /-- `SET.W w` (46_config_system.md R250). -/
  | setW (w : Word)
  /-- `SET.H h` (46_config_system.md R251). -/
  | setH (h : Word)
  /-- `SET.A f` (46_config_system.md R252). -/
  | setA (f : Flag)
  /-- `CRC.INIT` (40_crc32.md R123). -/
  | crcInit
  /-- `CRC.UPD d` (40_crc32.md R124). -/
  | crcUpd (d : Byte)
  /-- `CRC.GET` (40_crc32.md R125). -/
  | crcGet
  /-- `CRC32` of the whole input buffer (40_crc32.md R126). -/
  | crc32
  /-- `ADL.INIT` (41_adler32.md R142). -/
  | adlInit
  /-- `ADL.UPD d` (41_adler32.md R143). -/
  | adlUpd (d : Byte)
  /-- `ADL.GET` (41_adler32.md R144). -/
  | adlGet
  /-- `ADLER32` of the whole input buffer (41_adler32.md R145). -/
  | adler32
  /-- `WR.B v`: a byte folded into the CRC (42_writer.md R161). -/
  | wrB (v : Byte)
  /-- `WR.D v`: a byte folded into the CRC and the Adler sums (42_writer.md R162). -/
  | wrD (v : Byte)
  /-- `WR.U16LE v` (42_writer.md R163). -/
  | wrU16le (v : BitVec 16)
  /-- `WR.U32BE v` (42_writer.md R164). -/
  | wrU32be (v : Word)
  /-- `CHUNK type`: frames the input buffer; the operand is `tag32(type)` (43_chunk_framer.md R181). -/
  | chunk (tag : Word)
  /-- `SIG`: the PNG signature (43_chunk_framer.md R182). -/
  | sig
  /-- `IHDR` (43_chunk_framer.md R184). -/
  | ihdr
  /-- `IDAT` (44_idat_deflate.md R210). -/
  | idat
  /-- `IEND` (43_chunk_framer.md R185). -/
  | iend
  /-- `ENCODE`: the whole file (45_encode_driver.md R231). -/
  | encode
  deriving DecidableEq, Repr

end Sys2Proof
end

