-- ==== Sys2Proof/WellFormed.lean ====
section
/-! DEFINITION. Which terms and which words are commands. `WellFormed` is the operand check of 30_encoding.md R102 on a
decoded command; the operand types already hold it. `wordWellFormed` is the check of R101 and R103 on a 40-bit word,
by mask and match, written from the table's columns and not from the decoder. -/

namespace Sys2Proof

/-- How many low bits of `arg` the command uses (30_encoding.md R101, column "arg"). -/
def operandBits : Instr → Nat
  | .clr => 0
  | .setW _ => 32
  | .setH _ => 32
  | .setA _ => 1
  | .crcInit => 0
  | .crcUpd _ => 8
  | .crcGet => 0
  | .crc32 => 0
  | .adlInit => 0
  | .adlUpd _ => 8
  | .adlGet => 0
  | .adler32 => 0
  | .wrB _ => 8
  | .wrD _ => 8
  | .wrU16le _ => 16
  | .wrU32be _ => 32
  | .chunk _ => 32
  | .sig => 0
  | .ihdr => 0
  | .idat => 0
  | .iend => 0
  | .encode => 0

/-- The operand as the unsigned number R102 says it is; 0 for a command without one. -/
def operandValue : Instr → Nat
  | .clr => 0
  | .setW w => w.toNat
  | .setH h => h.toNat
  | .setA f => f.toNat
  | .crcInit => 0
  | .crcUpd d => d.toNat
  | .crcGet => 0
  | .crc32 => 0
  | .adlInit => 0
  | .adlUpd d => d.toNat
  | .adlGet => 0
  | .adler32 => 0
  | .wrB v => v.toNat
  | .wrD v => v.toNat
  | .wrU16le v => v.toNat
  | .wrU32be v => v.toNat
  | .chunk tag => tag.toNat
  | .sig => 0
  | .ihdr => 0
  | .idat => 0
  | .iend => 0
  | .encode => 0

/-- A decoded command is well formed when its operand fits the argument bits it uses (30_encoding.md R102, R103). -/
def WellFormed (i : Instr) : Bool := decide (operandValue i < 2 ^ operandBits i)

/-- One row of 30_encoding.md R101: the columns "match" and "mask". -/
structure TableRow where
  mnemonic : String
  pattern : Command
  mask : Command
  deriving DecidableEq, Repr

/-- 30_encoding.md R101, opcode groups `0x0_` and `0x1_`. -/
def tableConfigCrc : List TableRow :=
  [ ⟨"CLR", 0x0100000000, 0xFFFFFFFFFF⟩,
    ⟨"SET.W", 0x0200000000, 0xFF00000000⟩,
    ⟨"SET.H", 0x0300000000, 0xFF00000000⟩,
    ⟨"SET.A", 0x0400000000, 0xFFFFFFFFFE⟩,
    ⟨"CRC.INIT", 0x1000000000, 0xFFFFFFFFFF⟩,
    ⟨"CRC.UPD", 0x1100000000, 0xFFFFFFFF00⟩,
    ⟨"CRC.GET", 0x1200000000, 0xFFFFFFFFFF⟩,
    ⟨"CRC32", 0x1300000000, 0xFFFFFFFFFF⟩ ]

/-- 30_encoding.md R101, opcode groups `0x2_` and `0x3_`. -/
def tableAdlerWriter : List TableRow :=
  [ ⟨"ADL.INIT", 0x2000000000, 0xFFFFFFFFFF⟩,
    ⟨"ADL.UPD", 0x2100000000, 0xFFFFFFFF00⟩,
    ⟨"ADL.GET", 0x2200000000, 0xFFFFFFFFFF⟩,
    ⟨"ADLER32", 0x2300000000, 0xFFFFFFFFFF⟩,
    ⟨"WR.B", 0x3000000000, 0xFFFFFFFF00⟩,
    ⟨"WR.D", 0x3100000000, 0xFFFFFFFF00⟩,
    ⟨"WR.U16LE", 0x3200000000, 0xFFFFFF0000⟩,
    ⟨"WR.U32BE", 0x3300000000, 0xFF00000000⟩ ]

/-- 30_encoding.md R101, opcode group `0x4_`. -/
def tableFraming : List TableRow :=
  [ ⟨"CHUNK", 0x4000000000, 0xFF00000000⟩,
    ⟨"SIG", 0x4100000000, 0xFFFFFFFFFF⟩,
    ⟨"IHDR", 0x4200000000, 0xFFFFFFFFFF⟩,
    ⟨"IDAT", 0x4300000000, 0xFFFFFFFFFF⟩,
    ⟨"IEND", 0x4400000000, 0xFFFFFFFFFF⟩,
    ⟨"ENCODE", 0x4500000000, 0xFFFFFFFFFF⟩ ]

/-- The opcode map of 30_encoding.md R101. -/
def commandTable : List TableRow := tableConfigCrc ++ tableAdlerWriter ++ tableFraming

/-- A word selects the row for which `cmd AND mask = match` (30_encoding.md R101). -/
def TableRow.selects (r : TableRow) (w : Command) : Bool := w &&& r.mask == r.pattern

/-- A word is a command when some row of R101 selects it; every other word is illegal (30_encoding.md R103). -/
def wordWellFormed (w : Command) : Bool := commandTable.any (·.selects w)

end Sys2Proof
end

