-- ==== Sys2Proof/Decode.lean ====
section
/-! DEFINITION. The decoder and the encoder (30_encoding.md R100 to R103, R105). -/

namespace Sys2Proof

/-- Why a word or a byte sequence is not a command. Raised by the decoder alone, and none of them stops the machine:
safe. The block answers the two that a 40-bit word can give with `IllegalCommand` (30_encoding.md R103, 60_exceptions.md
R276); the third is about a byte channel, of which the machine takes whole words only. -/
inductive DecodeError where
  /-- The opcode is none of the 22 of R101. -/
  | unassignedOpcode (op : Byte)
  /-- The opcode is listed but an argument bit outside the used field is 1. -/
  | unusedArgumentBits (op : Byte) (arg : Word)
  /-- Fewer than the five bytes of R105 are left on a byte channel. The spec does not say what happens then: DESIGN
  CHOICE (log 21). -/
  | truncated (n : Nat)
  deriving DecidableEq, Repr

/-- `op = cmd[39:32]` (30_encoding.md R100). -/
def opcodeOf (w : Command) : Byte := w.extractLsb' 32 8

/-- `arg = cmd[31:0]` (30_encoding.md R100). -/
def argumentOf (w : Command) : Word := w.extractLsb' 0 32

/-- A command that uses the low `n` argument bits: every other argument bit must be 0 (30_encoding.md R103). -/
def withOperand (n : Nat) (op : Byte) (arg : Word) (mk : BitVec n → Instr) : Except DecodeError Instr :=
  if arg >>> n = 0 then .ok (mk (arg.setWidth n)) else .error (.unusedArgumentBits op arg)

/-- The decoder (30_encoding.md R101, R103): total, rejecting by name. -/
def decode (w : Command) : Except DecodeError Instr :=
  let op := opcodeOf w
  let arg := argumentOf w
  match op.toNat with
  | 0x01 => withOperand 0 op arg fun _ => .clr
  | 0x02 => withOperand 32 op arg .setW
  | 0x03 => withOperand 32 op arg .setH
  | 0x04 => withOperand 1 op arg .setA
  | 0x10 => withOperand 0 op arg fun _ => .crcInit
  | 0x11 => withOperand 8 op arg .crcUpd
  | 0x12 => withOperand 0 op arg fun _ => .crcGet
  | 0x13 => withOperand 0 op arg fun _ => .crc32
  | 0x20 => withOperand 0 op arg fun _ => .adlInit
  | 0x21 => withOperand 8 op arg .adlUpd
  | 0x22 => withOperand 0 op arg fun _ => .adlGet
  | 0x23 => withOperand 0 op arg fun _ => .adler32
  | 0x30 => withOperand 8 op arg .wrB
  | 0x31 => withOperand 8 op arg .wrD
  | 0x32 => withOperand 16 op arg .wrU16le
  | 0x33 => withOperand 32 op arg .wrU32be
  | 0x40 => withOperand 32 op arg .chunk
  | 0x41 => withOperand 0 op arg fun _ => .sig
  | 0x42 => withOperand 0 op arg fun _ => .ihdr
  | 0x43 => withOperand 0 op arg fun _ => .idat
  | 0x44 => withOperand 0 op arg fun _ => .iend
  | 0x45 => withOperand 0 op arg fun _ => .encode
  | _ => .error (.unassignedOpcode op)

/-- The 32-bit number of four bytes, most significant byte first (00_scope.md R7). -/
def bigEndianWord (b3 b2 b1 b0 : Byte) : Word :=
  b3.setWidth 32 <<< 24 ||| b2.setWidth 32 <<< 16 ||| b1.setWidth 32 <<< 8 ||| b0.setWidth 32

/-- A command word from its two fields: the opcode in bits 39:32, the argument in bits 31:0 (30_encoding.md R100). -/
def commandWord (op : Byte) (arg : Word) : Command := op.setWidth 40 <<< 32 ||| arg.setWidth 40

/-- The command word that five bytes of a byte channel carry: the opcode first, then the argument most significant byte
first (30_encoding.md R105). -/
def wordOfBytes (op a3 a2 a1 a0 : Byte) : Command := commandWord op (bigEndianWord a3 a2 a1 a0)

/-- The decoder over a byte channel (30_encoding.md R105): one command and the bytes after it. That fewer than five bytes
are no command, and are rejected as `truncated`, is the model's choice: DESIGN CHOICE, safe (log 21). -/
def decodeBytes : List Byte → Except DecodeError (Instr × List Byte)
  | op :: a3 :: a2 :: a1 :: a0 :: rest => (decode (wordOfBytes op a3 a2 a1 a0)).map fun i => (i, rest)
  | short => .error (.truncated short.length)

/-- The decoder on a word numbered as spec/opcode_table.json numbers it: the table writes one 40-bit number, bit 0 the
least significant bit of the argument, bits 39:32 the opcode (30_encoding.md R100; log 16). -/
def decodeTableWord (nbits w : Nat) : Option Instr :=
  if w % 2 ^ nbits < 2 ^ 40 then (decode (BitVec.ofNat 40 (w % 2 ^ nbits))).toOption else none

/-- The encoder: the opcode of R101 and the operand of R102 in the low argument bits, every unused bit 0. -/
def encodeWord : Instr → Command
  | .clr => commandWord 0x01 0
  | .setW w => commandWord 0x02 w
  | .setH h => commandWord 0x03 h
  | .setA f => commandWord 0x04 (f.setWidth 32)
  | .crcInit => commandWord 0x10 0
  | .crcUpd d => commandWord 0x11 (d.setWidth 32)
  | .crcGet => commandWord 0x12 0
  | .crc32 => commandWord 0x13 0
  | .adlInit => commandWord 0x20 0
  | .adlUpd d => commandWord 0x21 (d.setWidth 32)
  | .adlGet => commandWord 0x22 0
  | .adler32 => commandWord 0x23 0
  | .wrB v => commandWord 0x30 (v.setWidth 32)
  | .wrD v => commandWord 0x31 (v.setWidth 32)
  | .wrU16le v => commandWord 0x32 (v.setWidth 32)
  | .wrU32be v => commandWord 0x33 v
  | .chunk tag => commandWord 0x40 tag
  | .sig => commandWord 0x41 0
  | .ihdr => commandWord 0x42 0
  | .idat => commandWord 0x43 0
  | .iend => commandWord 0x44 0
  | .encode => commandWord 0x45 0

/-- The five bytes of a command word on a byte channel (30_encoding.md R105). -/
def bytesOfWord (w : Command) : List Byte :=
  [w.extractLsb' 32 8, w.extractLsb' 24 8, w.extractLsb' 16 8, w.extractLsb' 8 8, w.extractLsb' 0 8]

/-- The encoder over a byte channel. -/
def encodeBytes (i : Instr) : List Byte := bytesOfWord (encodeWord i)

end Sys2Proof
end

