-- ==== Sys2Proof/Config.lean ====
section
/-! DEFINITION. What one block fixes once (00_scope.md R5's parameters) and the source of the values the spec leaves
unspecified (60_exceptions.md R278). -/

namespace Sys2Proof

/-- The parameters of one block. The sink oracle, R5's third parameter, is the field `sink` of the state. -/
structure Config where
  /-- `MAX_CHUNK_LEN` (00_scope.md R5, 60_exceptions.md R275): "must be at most `0xFFFFFFFF`", so 32 bits hold every
  allowed value. -/
  maxChunkLen : Word
  deriving DecidableEq, Repr

/-- The default of 00_scope.md R5. -/
def Config.default : Config where
  maxChunkLen := 0xFFFFFFFF

/-- `IN_LEN_BITS`, the width of `IN_LEN`: its default (00_scope.md R5, D14). DESIGN CHOICE, safe (log 8). -/
abbrev Config.inLenBits : Nat := 64

/-- The arbitrary 32-bit values of 60_exceptions.md R278 (93 U2), numbered by the state's counter `draws`. It has no
body: nothing can be proved of any of them (log 4). -/
opaque Config.freeWord : Nat → Word

end Sys2Proof
end

