-- ==== Sys2Proof/Machine/State.lean ====
section
/-! DEFINITION. The state of the block and of what surrounds it (10_state.md), its reset, and the reasons a step can
stop. -/

namespace Sys2Proof.Machine

/-- The sink's answer to one `Emit` (20_memory.md R54). -/
inductive SinkAnswer where
  | accept
  | refuse
  deriving DecidableEq, Repr

/-- The answers the sink is going to give: those of `script` first, then `after` for ever. The answers are the
environment's and free (20_memory.md R54, 00_scope.md R5 and D30); every finite sequence of answers is one of these (log 3). -/
structure Sink where
  script : List SinkAnswer
  after : SinkAnswer
  deriving DecidableEq, Repr

/-- One action of the host (00_scope.md R11, 70_reset_and_hazards.md R300). -/
inductive HostEvent where
  /-- Issue the command word `w` on the command port (R11). -/
  | command (w : Command)
  /-- Replace the input buffer `IN` by these bytes (R11, 20_memory.md R62). -/
  | setInput (bytes : List Byte)
  /-- Hardware reset, between two commands (R300). -/
  | reset
  /-- Issue `w`, and reset the block when `k` bytes of the command have been appended, or at its end if it has fewer
  (R300, 93 U12). -/
  | resetDuring (w : Command) (k : Nat)
  deriving DecidableEq, Repr

/-- The machine: the eight registers of 10_state.md R20, what surrounds the block (R30, R31, 00_scope.md R11), the
parameters, and the counter of the unspecified values. -/
structure State where
  /-- `crc`: the running CRC-32 register, not inverted (10_state.md R21). -/
  crc : Word
  /-- `a`: the Adler-32 low sum (10_state.md R22). -/
  a : Word
  /-- `b`: the Adler-32 high sum (10_state.md R22). -/
  b : Word
  /-- `RES`: the last checksum delivered (10_state.md R25). -/
  res : Word
  /-- `STATUS`: the result code of the last command (10_state.md R24). -/
  status : Byte
  /-- `WIDTH` (10_state.md R26). -/
  width : Word
  /-- `HEIGHT` (10_state.md R26). -/
  height : Word
  /-- `ALPHA` (10_state.md R27). -/
  alpha : Flag
  /-- `IN`: the host's input buffer (10_state.md R30, 20_memory.md R50). -/
  input : Memory
  /-- `IN_LEN` (10_state.md R30). -/
  inLen : BitVec Config.inLenBits
  /-- `OUT`: the bytes the sink has accepted, the first accepted first (10_state.md R31). -/
  out : List Byte
  /-- The sink's coming answers (20_memory.md R54). -/
  sink : Sink
  /-- The host's coming actions, the next one first (00_scope.md R11; the model's own field, log 1). -/
  host : List HostEvent
  /-- The block's parameters (00_scope.md R5). -/
  cfg : Config
  /-- How many unspecified values have been drawn (the model's own field, log 4). -/
  draws : Nat
  deriving DecidableEq, Repr

/-- Why the machine stops. -/
inductive Fault where
  /-- Raised by a command that reads `IN` at or beyond `IN_LEN`, an offset that does not exist (20_memory.md R50, R52).
  Safe: R52 says no command ever does, and none of the model's does (log 14). -/
  | readBeyondInput
  deriving DecidableEq, Repr

/-- Why a step is refused. -/
inductive Refusal where
  /-- Raised by an arm of `exec` whose command has no meaning yet (no arm does). Safe. -/
  | notModelled (mnemonic : String)
  /-- Raised by the host action `setInput` with 2^64 bytes or more, which no host can supply: `0 <= IN_LEN < 2^64`
  (20_memory.md R50). Safe (log 8). -/
  | inputTooLong
  deriving DecidableEq, Repr

/-- The machine after hardware reset: the registers as 10_state.md R35 gives them. What reset does not touch (`IN`,
`OUT`, the sink, the host's actions, the parameters) has the initial values of log 1, 3, 4, 7, 9 and 10. -/
def State.reset : State where
  crc := 0xFFFFFFFF
  a := 1
  b := 0
  res := 0
  status := 0
  width := 0
  height := 0
  alpha := 0
  input := []
  inLen := 0
  out := []
  sink := { script := [], after := .accept }
  host := []
  cfg := Config.default
  draws := 0

end Sys2Proof.Machine
end

