-- ==== Sys2Proof/Machine/Checksum.lean ====
section
/-! DEFINITION. The two checksum functions: CRC-32 with its nibble table (10_state.md R28, R29; 40_crc32.md R120 to
R122) and Adler-32 (41_adler32.md R140, R141). -/

namespace Sys2Proof.Machine

/-- `POLY` (00_scope.md R5). -/
def crcPoly : Word := 0xEDB88320

/-- `CRC_INIT` (00_scope.md R5). -/
def crcInit : Word := 0xFFFFFFFF

/-- The sixteen entries of the CRC table, as 10_state.md R28 lists them. -/
def crcTable : List Word :=
  [ 0x00000000, 0x1DB71064, 0x3B6E20C8, 0x26D930AC, 0x76DC4190, 0x6B6B51F4, 0x4DB26158, 0x5005713C,
    0xEDB88320, 0xF00F9344, 0xD6D6A3E8, 0xCB61B38C, 0x9B64C2B0, 0x86D3D2D4, 0xA00AE278, 0xBDBDF21C ]

/-- `T[i]` (10_state.md R28). -/
def crcEntry (i : BitVec 4) : Word := crcTable.getD i.toNat 0

/-- One turn of the bit loop: `(c >> 1) XOR (POLY if c[0] = 1 else 0)` (10_state.md R29, 40_crc32.md R121). -/
def crcBit (c : Word) : Word := (c >>> 1) ^^^ (if c.getLsbD 0 then crcPoly else 0)

/-- The generation of table entry `i` (10_state.md R29). -/
def crcEntryGenerated (i : BitVec 4) : Word := Nat.repeat crcBit 4 (i.setWidth 32)

/-- One 4-bit reduction: `T[c[3:0]] XOR (c >> 4)` (40_crc32.md R120). -/
def crcNibble (c : Word) : Word := crcEntry (c.extractLsb' 0 4) ^^^ (c >>> 4)

/-- `crc_step(c, d)` (40_crc32.md R120). -/
def crcStep (c : Word) (d : Byte) : Word := crcNibble (crcNibble (c ^^^ d.setWidth 32))

/-- `crc_step_bits(c, d)`, the definition without a table (40_crc32.md R121). -/
def crcStepBits (c : Word) (d : Byte) : Word := Nat.repeat crcBit 8 (c ^^^ d.setWidth 32)

/-- A byte sequence folded into a CRC register, first byte first (40_crc32.md R122). -/
def crcFold (c : Word) (bs : List Byte) : Word := bs.foldl crcStep c

/-- The value delivered: the inversion of the register (40_crc32.md R122). -/
def crcValue (c : Word) : Word := ~~~c

/-- `crc32(s)` (40_crc32.md R122). -/
def crc32 (bs : List Byte) : Word := crcValue (crcFold crcInit bs)

/-- `ADLER_MOD` (00_scope.md R5). -/
def adlerMod : Nat := 65521

/-- `ADLER_A_INIT` (00_scope.md R5). -/
def adlerInitA : Word := 1

/-- `ADLER_B_INIT` (00_scope.md R5). -/
def adlerInitB : Word := 0

/-- `adler_step(a, b, d)`: the new `a` enters the new `b`; the sums are exact (41_adler32.md R140). For `a`, `b` above
65520, which only a sink failure can leave, the same formula on the true sums: DEDUCED, unsafe (log 6). -/
def adlerStep (p : Word × Word) (d : Byte) : Word × Word :=
  let a' := (p.1.toNat + d.toNat) % adlerMod
  (BitVec.ofNat 32 a', BitVec.ofNat 32 ((p.2.toNat + a') % adlerMod))

/-- A byte sequence folded into the two sums, first byte first (41_adler32.md R141). -/
def adlerFold (p : Word × Word) (bs : List Byte) : Word × Word := bs.foldl adlerStep p

/-- `(b << 16) OR a` as a 32-bit value (41_adler32.md R141). -/
def adlerValue (p : Word × Word) : Word := (p.2 <<< 16) ||| p.1

/-- `adler32(s)` (41_adler32.md R141). -/
def adler32 (bs : List Byte) : Word := adlerValue (adlerFold (adlerInitA, adlerInitB) bs)

end Sys2Proof.Machine
end

