-- ==== Sys2Proof/Machine/Operands.lean ====
section
/-! DEFINITION. The operand forms: serialisation (00_scope.md R7), the chunk tags (R6, R7), and the quantities the image
commands compute from `WIDTH`, `HEIGHT` and `ALPHA`, exact integers all (R9; 44_idat_deflate.md R200 to R202). -/

namespace Sys2Proof.Machine

/-- `be32(v)`: most significant byte first (00_scope.md R7). -/
def be32 (v : Word) : List Byte :=
  [v.extractLsb' 24 8, v.extractLsb' 16 8, v.extractLsb' 8 8, v.extractLsb' 0 8]

/-- `le16(v)`: least significant byte first (00_scope.md R7). -/
def le16 (v : BitVec 16) : List Byte := [v.extractLsb' 0 8, v.extractLsb' 8 8]

/-- `tag32` of a four-byte sequence: the number whose `be32` it is (00_scope.md R7). -/
def tag32 (b3 b2 b1 b0 : Byte) : Word := bigEndianWord b3 b2 b1 b0

/-- `tag32("IHDR")` (00_scope.md R7). -/
def tagIHDR : Word := 0x49484452

/-- `tag32("IDAT")` (00_scope.md R7). -/
def tagIDAT : Word := 0x49444154

/-- `tag32("IEND")` (00_scope.md R7). -/
def tagIEND : Word := 0x49454E44

/-- `channels` (10_state.md R27, 44_idat_deflate.md R200). -/
def channels (f : Flag) : Nat := if f = 1 then 4 else 3

/-- `color_type` (10_state.md R27, 30_encoding.md R84). -/
def colorType (f : Flag) : Byte := if f = 1 then 0x06 else 0x02

/-- `row_bytes` (44_idat_deflate.md R200). -/
def rowBytes (w : Word) (f : Flag) : Nat := w.toNat * channels f

/-- `row_stride` (44_idat_deflate.md R200). -/
def rowStride (w : Word) (f : Flag) : Nat := rowBytes w f + 1

/-- `expect_len` (44_idat_deflate.md R201). -/
def expectLen (w h : Word) (f : Flag) : Nat := w.toNat * h.toNat * channels f

/-- `idat_len` (44_idat_deflate.md R202). -/
def idatLen (w h : Word) (f : Flag) : Nat := 2 + h.toNat * (5 + rowStride w f) + 4

end Sys2Proof.Machine
end

