-- ==== Sys2Proof/Machine/Flags.lean ====
section
/-! DEFINITION. What the block has in place of flags (10_state.md R33): the codes of `STATUS` (10_state.md R24) and the
conditions of the errors a command checks before its first `Emit` (60_exceptions.md R271 to R277). -/

namespace Sys2Proof.Machine

/-- The six error kinds (60_exceptions.md R270). -/
inductive ErrorKind where
  | invalidDimensions
  | bufferSizeMismatch
  | rowTooLarge
  | sinkWriteFailure
  | chunkTooLarge
  | illegalCommand
  deriving DecidableEq, Repr

/-- The code written to `STATUS` (10_state.md R24, 60_exceptions.md R270). -/
def ErrorKind.code : ErrorKind → Byte
  | .invalidDimensions => 1
  | .bufferSizeMismatch => 2
  | .rowTooLarge => 3
  | .sinkWriteFailure => 4
  | .chunkTooLarge => 5
  | .illegalCommand => 6

/-- Code 0, `OK` (10_state.md R24). -/
def statusOk : Byte := 0

/-- `MAX_ROW_STRIDE` (00_scope.md R5). -/
def maxRowStride : Nat := 65535

/-- The check of `IHDR` (43_chunk_framer.md R184, 60_exceptions.md R271). -/
def dimensionError (s : State) : Option ErrorKind :=
  if s.width = 0 ∨ s.height = 0 then some .invalidDimensions else none

/-- The check of `CHUNK` (43_chunk_framer.md R181, 60_exceptions.md R275). -/
def payloadError (s : State) : Option ErrorKind :=
  if s.inLen.toNat > s.cfg.maxChunkLen.toNat then some .chunkTooLarge else none

/-- The pre-checks of `IDAT` and `ENCODE`, in their order (44_idat_deflate.md R209, 45_encode_driver.md R232,
60_exceptions.md R277). -/
def imageError (s : State) : Option ErrorKind :=
  if s.width = 0 ∨ s.height = 0 then some .invalidDimensions
  else if s.inLen.toNat ≠ expectLen s.width s.height s.alpha then some .bufferSizeMismatch
  else if rowStride s.width s.alpha > maxRowStride then some .rowTooLarge
  else if idatLen s.width s.height s.alpha > s.cfg.maxChunkLen.toNat then some .chunkTooLarge
  else none

end Sys2Proof.Machine
end

