-- ==== Sys2Proof/Machine/Ops.lean ====
section
/-! DEFINITION. The shared operations: the input buffer's memory, the sink, the register updates, the progress of a
command (00_scope.md R8's primitives), raising an error and completing (60_exceptions.md R278), and the framing
procedure (43_chunk_framer.md R180). -/

namespace Sys2Proof

/-! ### Memory: (offset, byte) pairs in one canonical form -/

/-- What an offset that is not listed reads as. Below `IN_LEN` every byte is the host's, so this is the form in which a
zero byte is kept, not a value of the model's (log 9). -/
def Memory.background : Byte := 0

/-- The byte at an offset (00_scope.md R8, `MemRead(addr, 1)`). -/
def Memory.read : Memory → Nat → Byte
  | [], _ => Memory.background
  | c :: m, x => if c.1 = x then c.2 else Memory.read m x

/-- The memory with `v` at offset `x` and every other offset as before. A byte equal to the background is not listed. -/
def Memory.write : Memory → Nat → Byte → Memory
  | [], x, v => if v = Memory.background then [] else [(x, v)]
  | c :: m, x, v =>
    if x < c.1 then (if v = Memory.background then c :: m else (x, v) :: c :: m)
    else if x = c.1 then (if v = Memory.background then m else (x, v) :: m)
    else c :: Memory.write m x v

/-- The memory that holds the given bytes from offset `x` on, above those of `m`. -/
def Memory.writeBytes (m : Memory) : Nat → List Byte → Memory
  | _, [] => m
  | x, v :: vs => Memory.writeBytes (Memory.write m x v) (x + 1) vs

/-- Offsets strictly rising from `lo` on, no entry equal to the background. -/
def Memory.risingFrom : Nat → Memory → Bool
  | _, [] => true
  | lo, c :: m => decide (lo ≤ c.1) && c.2 != Memory.background && Memory.risingFrom (c.1 + 1) m

/-- The canonical form: equal memories are equal lists. -/
def Memory.wf (m : Memory) : Bool := Memory.risingFrom 0 m

/-- Every listed offset is below `n`. -/
def Memory.below (n : Nat) (m : Memory) : Bool := m.all fun c => decide (c.1 < n)

end Sys2Proof

namespace Sys2Proof.Machine

/-! ### The sink's answers (20_memory.md R54) -/

/-- The answer to the next `Emit`. -/
def Sink.answer (k : Sink) : SinkAnswer := k.script.headD k.after

/-- The answers after the next one: each `Emit` is a fresh question (60_exceptions.md R274). -/
def Sink.rest (k : Sink) : Sink := { k with script := k.script.tail }

/-- The answers after the next `n`. -/
def Sink.drop (k : Sink) (n : Nat) : Sink := { k with script := k.script.drop n }

/-- The sink accepts the next `n` bytes. -/
def Sink.accepts : Nat → Sink → Bool
  | 0, _ => true
  | n + 1, k => k.answer == .accept && Sink.accepts n k.rest

/-- The sink accepts the next `n` bytes and refuses the one after them. -/
def Sink.refusesAfter (n : Nat) (k : Sink) : Bool := Sink.accepts n k && (k.drop n).answer == .refuse

/-! ### Register updates -/

def State.setCrc (s : State) (v : Word) : State := { s with crc := v }
def State.setAdler (s : State) (p : Word × Word) : State := { s with a := p.1, b := p.2 }
def State.setRes (s : State) (v : Word) : State := { s with res := v }
def State.setStatus (s : State) (v : Byte) : State := { s with status := v }
def State.setWidth (s : State) (v : Word) : State := { s with width := v }
def State.setHeight (s : State) (v : Word) : State := { s with height := v }
def State.setAlpha (s : State) (v : Flag) : State := { s with alpha := v }
def State.setHost (s : State) (es : List HostEvent) : State := { s with host := es }
def State.setSink (s : State) (k : Sink) : State := { s with sink := k }
def State.setOut (s : State) (bs : List Byte) : State := { s with out := bs }

/-- Replace `IN` and `IN_LEN` (00_scope.md R11). -/
def State.setInput (s : State) (m : Memory) (n : BitVec Config.inLenBits) : State :=
  { s with input := m, inLen := n }

/-- `OUT <- OUT ++ [v]`, the sink having answered (20_memory.md R54). -/
def State.append (s : State) (v : Byte) : State := { s with out := s.out ++ [v], sink := s.sink.rest }

/-- `crc <- crc_step(crc, v)` (42_writer.md R160). -/
def State.foldCrc (s : State) (v : Byte) : State := s.setCrc (crcStep s.crc v)

/-- `(a, b) <- adler_step(a, b, v)` (42_writer.md R160). -/
def State.foldAdler (s : State) (v : Byte) : State := s.setAdler (adlerStep (s.a, s.b) v)

/-- `crc`, `a`, `b` become unspecified: three values nothing constrains (60_exceptions.md R278, 93 U2; log 4, log 5). -/
def State.unspecifySums (s : State) : State :=
  { s with
    crc := Config.freeWord s.draws
    a := Config.freeWord (s.draws + 1)
    b := Config.freeWord (s.draws + 2)
    draws := s.draws + 3 }

/-- Every register to its reset value, nothing else touched (10_state.md R35, 70_reset_and_hazards.md R300,
46_config_system.md R253). -/
def State.resetRegisters (s : State) : State :=
  { s with
    crc := crcInit, a := adlerInitA, b := adlerInitB, res := 0, status := statusOk
    width := 0, height := 0, alpha := 0 }

/-- `IN[off]`, or nothing at or beyond `IN_LEN` (00_scope.md R8, 20_memory.md R50, R52). -/
def State.readIn (s : State) (off : Nat) : Option Byte :=
  if off < s.inLen.toNat then some (Memory.read s.input off) else none

/-- `IN[0 .. IN_LEN)` as a byte sequence (20_memory.md R51). -/
def State.inBytes (s : State) : List Byte := (List.range s.inLen.toNat).map (Memory.read s.input)

/-! ### The progress of a command -/

/-- Where a command stands: still running, ended by an error (`raise`), or at a read of `IN` that does not exist. -/
inductive Progress where
  | going (s : State)
  | stopped (e : ErrorKind) (s : State)
  | faulted (f : Fault)
  deriving DecidableEq, Repr

/-- The next line of a command's pseudocode runs only if no error stopped it (00_scope.md R8, `raise`). -/
def Progress.andThen (p : Progress) (k : State → Progress) : Progress :=
  match p with
  | .going s => k s
  | .stopped e s => .stopped e s
  | .faulted f => .faulted f

/-- `Emit(v)` (20_memory.md R54). -/
def emit (v : Byte) (s : State) : Progress :=
  match s.sink.answer with
  | .accept => .going (s.append v)
  | .refuse => .stopped .sinkWriteFailure (s.setSink s.sink.rest)

/-- `PutC(v)`: emitted, then folded into the CRC (42_writer.md R160). -/
def putC (v : Byte) (s : State) : Progress := (emit v s).andThen fun t => .going (t.foldCrc v)

/-- `PutD(v)`: emitted, then folded into the CRC and the Adler sums (42_writer.md R160). -/
def putD (v : Byte) (s : State) : Progress := (putC v s).andThen fun t => .going (t.foldAdler v)

/-- `for i in 0 .. |bs|-1: act(bs[i])`; with `emit` it is `EmitSeq` (00_scope.md R8). -/
def sequence (act : Byte → State → Progress) : List Byte → State → Progress
  | [], s => .going s
  | v :: vs, s => (act v s).andThen (sequence act vs)

/-- `for i in 0 .. n-1: act(IN[off + i])`, ascending (20_memory.md R52). -/
def overInput (act : Byte → State → Progress) : Nat → Nat → State → Progress
  | 0, _, s => .going s
  | n + 1, off, s =>
    match s.readIn off with
    | some v => (act v s).andThen (overInput act n (off + 1))
    | none => .faulted .readBeyondInput

/-- The pre-checks of a command, made before its body: the first that fails stops it (60_exceptions.md R277). -/
def checked (err : Option ErrorKind) (body : State → Progress) (s : State) : Progress :=
  match err with
  | some e => .stopped e s
  | none => body s

/-! ### The end of a command -/

/-- `done`: `STATUS <- 0` (00_scope.md R8). -/
def State.done (s : State) : State := s.setStatus statusOk

/-- `raise E`, the block's only exception entry (60_exceptions.md R278): `STATUS <- code(E)`; a sink failure also leaves
`crc`, `a`, `b` unspecified. There is no saved state, no handler and no return (R279). -/
def State.raise (s : State) (e : ErrorKind) : State :=
  match e with
  | .sinkWriteFailure => s.unspecifySums.setStatus e.code
  | .invalidDimensions => s.setStatus e.code
  | .bufferSizeMismatch => s.setStatus e.code
  | .rowTooLarge => s.setStatus e.code
  | .chunkTooLarge => s.setStatus e.code
  | .illegalCommand => s.setStatus e.code

/-- A command's end: `done`, or the error that stopped it (60_exceptions.md R278). -/
def complete (p : Progress) : Host.Outcome State Fault Refusal :=
  match p with
  | .going s => .next s.done
  | .stopped e s => .next (s.raise e)
  | .faulted f => .fault f

/-! ### The framing procedure -/

/-- `Frame(type, p)` (43_chunk_framer.md R180). The payload is an action that emits and folds its `len` bytes, since it
"need not exist as a stored sequence". -/
def frame (len : Nat) (tag : Word) (payload : State → Progress) (s : State) : Progress :=
  ((((sequence emit (be32 (BitVec.ofNat 32 len)) s).andThen fun t => .going (t.setCrc crcInit)).andThen
    (sequence putC (be32 tag))).andThen payload).andThen fun t => sequence emit (be32 (crcValue t.crc)) t

end Sys2Proof.Machine
end

