-- ==== Sys2Proof/Machine/Adler.lean ====
section
/-! DEFINITION. The Adler-32 family: `ADL.INIT`, `ADL.UPD`, `ADL.GET`, `ADLER32` (41_adler32.md). -/

namespace Sys2Proof.Machine

/-- `a <- 1; b <- 0` (41_adler32.md R142). -/
def State.initAdler (s : State) : State := s.setAdler (adlerInitA, adlerInitB)

/-- `ADL.INIT` (41_adler32.md R142). -/
def execAdlInit (s : State) : Host.Outcome State Fault Refusal := complete (.going s.initAdler)

/-- `ADL.UPD d` (41_adler32.md R143). -/
def execAdlUpd (d : Byte) (s : State) : Host.Outcome State Fault Refusal := complete (.going (s.foldAdler d))

/-- `RES <- (b << 16) OR a`; `a`, `b` keep their values (41_adler32.md R144). -/
def State.deliverAdler (s : State) : State := s.setRes (adlerValue (s.a, s.b))

/-- `ADL.GET` (41_adler32.md R144). -/
def execAdlGet (s : State) : Host.Outcome State Fault Refusal := complete (.going s.deliverAdler)

/-- `ADLER32`: the whole input buffer folded into fresh sums (41_adler32.md R145). -/
def execAdler32 (s : State) : Host.Outcome State Fault Refusal :=
  complete ((overInput (fun v t => .going (t.foldAdler v)) s.inLen.toNat 0 s.initAdler).andThen
    fun t => .going t.deliverAdler)

end Sys2Proof.Machine
end

