-- ==== Sys2Proof/Machine/Configure.lean ====
section
/-! DEFINITION. The configuration family: `SET.W`, `SET.H`, `SET.A`, `CLR` (46_config_system.md). -/

namespace Sys2Proof.Machine

/-- `CLR` (46_config_system.md R253). -/
def execClr (s : State) : Host.Outcome State Fault Refusal := complete (.going s.resetRegisters)

/-- `SET.W w` (46_config_system.md R250): any 32-bit value is stored. -/
def execSetW (w : Word) (s : State) : Host.Outcome State Fault Refusal := complete (.going (s.setWidth w))

/-- `SET.H h` (46_config_system.md R251): any 32-bit value is stored. -/
def execSetH (h : Word) (s : State) : Host.Outcome State Fault Refusal := complete (.going (s.setHeight h))

/-- `SET.A f` (46_config_system.md R252). -/
def execSetA (f : Flag) (s : State) : Host.Outcome State Fault Refusal := complete (.going (s.setAlpha f))

end Sys2Proof.Machine
end

