-- ==== Sys2Proof/Machine/Crc.lean ====
section
/-! DEFINITION. The CRC-32 family: `CRC.INIT`, `CRC.UPD`, `CRC.GET`, `CRC32` (40_crc32.md). -/

namespace Sys2Proof.Machine

/-- `CRC.INIT` (40_crc32.md R123). -/
def execCrcInit (s : State) : Host.Outcome State Fault Refusal := complete (.going (s.setCrc crcInit))

/-- `CRC.UPD d` (40_crc32.md R124). -/
def execCrcUpd (d : Byte) (s : State) : Host.Outcome State Fault Refusal := complete (.going (s.foldCrc d))

/-- `RES <- NOT_32(crc)`; `crc` itself keeps its value (40_crc32.md R125). -/
def State.deliverCrc (s : State) : State := s.setRes (crcValue s.crc)

/-- `CRC.GET` (40_crc32.md R125). -/
def execCrcGet (s : State) : Host.Outcome State Fault Refusal := complete (.going s.deliverCrc)

/-- `CRC32`: the whole input buffer folded into a fresh register (40_crc32.md R126). -/
def execCrc32 (s : State) : Host.Outcome State Fault Refusal :=
  complete ((overInput (fun v t => .going (t.foldCrc v)) s.inLen.toNat 0 (s.setCrc crcInit)).andThen
    fun t => .going t.deliverCrc)

end Sys2Proof.Machine
end

