-- ==== Sys2Proof/Machine/Formats.lean ====
section
/-! DEFINITION. The output wire formats as byte sequences (30_encoding.md part A, R80 to R93). The constants and the row
prefix are what the commands emit; `idatPayload` and `pngFile` are the functions of 44_idat_deflate.md R206 and
45_encode_driver.md R230, which the streaming commands are stated against. -/

namespace Sys2Proof.Machine

/-- The PNG signature (30_encoding.md R80). -/
def signature : List Byte := [0x89, 0x50, 0x4E, 0x47, 0x0D, 0x0A, 0x1A, 0x0A]

/-- The zlib header (30_encoding.md R86). -/
def zlibHeader : List Byte := [0x78, 0x01]

/-- `BIT_DEPTH` (00_scope.md R5). -/
def bitDepth : Byte := 0x08

/-- The filter byte, type "None" (30_encoding.md R89). -/
def filterByte : Byte := 0x00

/-- `ihdr_payload(w, h, f)` (43_chunk_framer.md R183, 30_encoding.md R83). -/
def ihdrPayload (w h : Word) (f : Flag) : List Byte :=
  be32 w ++ be32 h ++ [bitDepth, colorType f, 0x00, 0x00, 0x00]

/-- The stored-block header: `BFINAL` in bit 0, `BTYPE` and the padding zero (30_encoding.md R87). -/
def blockHeader (last : Bool) : Byte := if last then 0x01 else 0x00

/-- What stands before the data of row `y`: block header, `LEN`, `NLEN` (30_encoding.md R87, R88). -/
def rowPrefix (w h : Word) (f : Flag) (y : Nat) : List Byte :=
  let len : BitVec 16 := BitVec.ofNat 16 (rowStride w f)
  blockHeader (y + 1 == h.toNat) :: (le16 len ++ le16 (~~~len))

/-- A chunk on the wire: length, type, payload, CRC (30_encoding.md R81, 45_encode_driver.md R230). -/
def chunkBytes (tag : Word) (p : List Byte) : List Byte :=
  be32 (BitVec.ofNat 32 p.length) ++ be32 tag ++ p ++ be32 (crc32 (be32 tag ++ p))

/-- `row(y)`: the pixel bytes of row `y` (20_memory.md R51, 44_idat_deflate.md R206). -/
def rowPixels (w : Word) (f : Flag) (pix : List Byte) (y : Nat) : List Byte :=
  (pix.drop (y * rowBytes w f)).take (rowBytes w f)

/-- The data of row `y`: the filter byte and the pixels (30_encoding.md R89). -/
def rowData (w : Word) (f : Flag) (pix : List Byte) (y : Nat) : List Byte := filterByte :: rowPixels w f pix y

/-- `row_block(y)` (44_idat_deflate.md R204). -/
def rowBlock (w h : Word) (f : Flag) (pix : List Byte) (y : Nat) : List Byte :=
  rowPrefix w h f y ++ rowData w f pix y

/-- `U`, the uncompressed stream (30_encoding.md R90, 44_idat_deflate.md R206). -/
def uncompressed (w h : Word) (f : Flag) (pix : List Byte) : List Byte :=
  (List.range h.toNat).flatMap (rowData w f pix)

/-- `idat_payload(w, h, f, pix)` (44_idat_deflate.md R206, 30_encoding.md R91). -/
def idatPayload (w h : Word) (f : Flag) (pix : List Byte) : List Byte :=
  zlibHeader ++ (List.range h.toNat).flatMap (rowBlock w h f pix) ++ be32 (adler32 (uncompressed w h f pix))

/-- `encode_bytes(w, h, f, pix)`, the whole file (45_encode_driver.md R230). -/
def pngFile (w h : Word) (f : Flag) (pix : List Byte) : List Byte :=
  signature ++ chunkBytes tagIHDR (ihdrPayload w h f) ++ chunkBytes tagIDAT (idatPayload w h f pix)
    ++ chunkBytes tagIEND []

end Sys2Proof.Machine
end

