-- ==== Sys2Proof/Machine/Framer.lean ====
section
/-! DEFINITION. The chunk framer: `CHUNK`, `SIG`, `IHDR`, `IEND` (43_chunk_framer.md). -/

namespace Sys2Proof.Machine

/-- `Frame(be32(arg), IN[0 .. IN_LEN))` (43_chunk_framer.md R181). -/
def chunkBody (tag : Word) (s : State) : Progress :=
  frame s.inLen.toNat tag (fun t => overInput putC t.inLen.toNat 0 t) s

/-- `CHUNK type` (43_chunk_framer.md R181): the type is framed as given (70_reset_and_hazards.md R309). -/
def execChunk (tag : Word) (s : State) : Host.Outcome State Fault Refusal :=
  complete (checked (payloadError s) (chunkBody tag) s)

/-- The signature, not folded into any checksum (43_chunk_framer.md R182). -/
def sigBody (s : State) : Progress := sequence emit signature s

/-- `SIG` (43_chunk_framer.md R182). -/
def execSig (s : State) : Host.Outcome State Fault Refusal := complete (sigBody s)

/-- `Frame("IHDR", ihdr_payload(WIDTH, HEIGHT, ALPHA))` (43_chunk_framer.md R184). -/
def ihdrBody (s : State) : Progress :=
  let p := ihdrPayload s.width s.height s.alpha
  frame p.length tagIHDR (sequence putC p) s

/-- `IHDR` (43_chunk_framer.md R184): checks the dimensions only. -/
def execIhdr (s : State) : Host.Outcome State Fault Refusal := complete (checked (dimensionError s) ihdrBody s)

/-- `Frame("IEND", [])` (43_chunk_framer.md R185). -/
def iendBody (s : State) : Progress := frame 0 tagIEND .going s

/-- `IEND` (43_chunk_framer.md R185). -/
def execIend (s : State) : Host.Outcome State Fault Refusal := complete (iendBody s)

end Sys2Proof.Machine
end

