-- ==== Sys2Proof/Machine/Idat.lean ====
section
/-! DEFINITION. The DEFLATE stored-block wrapper: `IDAT` (44_idat_deflate.md), streamed byte by byte from `IN`. -/

namespace Sys2Proof.Machine

/-- One turn of the row loop of 44_idat_deflate.md R210: block header, `LEN`, `NLEN` into the CRC; the filter byte and
the row's pixel bytes into the CRC and the Adler sums (R207, R208). -/
def idatRow (y : Nat) (s : State) : Progress :=
  ((sequence putC (rowPrefix s.width s.height s.alpha y) s).andThen (putD filterByte)).andThen fun t =>
    overInput putD (rowBytes t.width t.alpha) (y * rowBytes t.width t.alpha) t

/-- `n` rows from row `y` on, in ascending order (44_idat_deflate.md R204). -/
def idatRows : Nat → Nat → State → Progress
  | 0, _, s => .going s
  | n + 1, y, s => (idatRow y s).andThen (idatRows n (y + 1))

/-- The payload of the IDAT chunk (44_idat_deflate.md R210): zlib header, `a <- 1; b <- 0`, the rows, the trailer. -/
def idatStream (s : State) : Progress :=
  (((sequence putC zlibHeader s).andThen fun t => .going t.initAdler).andThen fun t =>
    idatRows t.height.toNat 0 t).andThen fun t => sequence putC (be32 (adlerValue (t.a, t.b))) t

/-- The body of `IDAT` after its pre-checks (44_idat_deflate.md R210). -/
def idatBody (s : State) : Progress := frame (idatLen s.width s.height s.alpha) tagIDAT idatStream s

/-- `IDAT` (44_idat_deflate.md R209, R210). -/
def execIdat (s : State) : Host.Outcome State Fault Refusal := complete (checked (imageError s) idatBody s)

end Sys2Proof.Machine
end

