-- ==== Sys2Proof/Machine/Encode.lean ====
section
/-! DEFINITION. The encoder driver: `ENCODE` (45_encode_driver.md). -/

namespace Sys2Proof.Machine

/-- Signature, IHDR, IDAT, IEND, in order (45_encode_driver.md R231). -/
def encodeBody (s : State) : Progress :=
  (((sigBody s).andThen ihdrBody).andThen idatBody).andThen iendBody

/-- `ENCODE` (45_encode_driver.md R231): every pre-check before the first byte (R232). -/
def execEncode (s : State) : Host.Outcome State Fault Refusal := complete (checked (imageError s) encodeBody s)

end Sys2Proof.Machine
end

