-- ==== Sys2Proof/Machine/Writer.lean ====
section
/-! DEFINITION. The checksummed writer: `WR.B`, `WR.D`, `WR.U16LE`, `WR.U32BE` (42_writer.md). -/

namespace Sys2Proof.Machine

/-- `WR.B v` (42_writer.md R161). -/
def execWrB (v : Byte) (s : State) : Host.Outcome State Fault Refusal := complete (putC v s)

/-- `WR.D v` (42_writer.md R162). -/
def execWrD (v : Byte) (s : State) : Host.Outcome State Fault Refusal := complete (putD v s)

/-- `WR.U16LE v`: least significant byte first (42_writer.md R163). -/
def execWrU16le (v : BitVec 16) (s : State) : Host.Outcome State Fault Refusal := complete (sequence putC (le16 v) s)

/-- `WR.U32BE v`: most significant byte first (42_writer.md R164). -/
def execWrU32be (v : Word) (s : State) : Host.Outcome State Fault Refusal := complete (sequence putC (be32 v) s)

end Sys2Proof.Machine
end

