-- ==== Sys2Proof/Machine/Dispatch.lean ====
section
/-! DEFINITION. The meaning of every command, one arm per constructor of `Instr` (30_encoding.md R101). -/

namespace Sys2Proof.Machine

def exec (i : Instr) (s : State) : Host.Outcome State Fault Refusal :=
  match i with
  | .clr => Sys2Proof.Machine.execClr s
  | .setW w => Sys2Proof.Machine.execSetW w s
  | .setH h => Sys2Proof.Machine.execSetH h s
  | .setA f => Sys2Proof.Machine.execSetA f s
  | .crcInit => Sys2Proof.Machine.execCrcInit s
  | .crcUpd d => Sys2Proof.Machine.execCrcUpd d s
  | .crcGet => Sys2Proof.Machine.execCrcGet s
  | .crc32 => Sys2Proof.Machine.execCrc32 s
  | .adlInit => Sys2Proof.Machine.execAdlInit s
  | .adlUpd d => Sys2Proof.Machine.execAdlUpd d s
  | .adlGet => Sys2Proof.Machine.execAdlGet s
  | .adler32 => Sys2Proof.Machine.execAdler32 s
  | .wrB v => Sys2Proof.Machine.execWrB v s
  | .wrD v => Sys2Proof.Machine.execWrD v s
  | .wrU16le v => Sys2Proof.Machine.execWrU16le v s
  | .wrU32be v => Sys2Proof.Machine.execWrU32be v s
  | .chunk tag => Sys2Proof.Machine.execChunk tag s
  | .sig => Sys2Proof.Machine.execSig s
  | .ihdr => Sys2Proof.Machine.execIhdr s
  | .idat => Sys2Proof.Machine.execIdat s
  | .iend => Sys2Proof.Machine.execIend s
  | .encode => Sys2Proof.Machine.execEncode s

end Sys2Proof.Machine
end

