-- ==== Sys2Proof/Machine/HostPort.lean ====
section
/-! DEFINITION. What the block does with one action of the host: a command word (00_scope.md R11), a new input buffer
(R11), a hardware reset between commands or during one (70_reset_and_hazards.md R300). -/

namespace Sys2Proof.Machine

/-- A command word: decoded and executed, or `IllegalCommand` (60_exceptions.md R276: decode comes first, R277). -/
def runCommand (w : Command) (s : State) : Host.Outcome State Fault Refusal :=
  match decode w with
  | .ok i => exec i s
  | .error _ => .next (s.raise .illegalCommand)

/-- The host replaces `IN` and `IN_LEN` (00_scope.md R11); a buffer of 2^64 bytes or more does not exist
(20_memory.md R50) and is refused. -/
def loadInput (bytes : List Byte) (s : State) : Host.Outcome State Fault Refusal :=
  if bytes.length < 2 ^ Config.inLenBits then
    .next (s.setInput (Memory.writeBytes [] 0 bytes) (BitVec.ofNat Config.inLenBits bytes.length))
  else .refused .inputTooLong

/-- `s` when hardware reset arrives while the command that leads from `s` to `t` has appended `k` bytes
(70_reset_and_hazards.md R300, 93 U12): the registers are reset, the bytes already appended stay, and the sink has
answered for no more than them. A command that never appends `k` bytes had ended first (log 12). -/
def State.abandon (s t : State) (k : Nat) : State :=
  let appended := t.out.drop s.out.length
  if k ≤ appended.length then
    ((s.setOut (s.out ++ appended.take k)).setSink (s.sink.drop k)).resetRegisters
  else t.resetRegisters

/-- A command during which hardware reset arrives (70_reset_and_hazards.md R300). -/
def runAbandoned (w : Command) (k : Nat) (s : State) : Host.Outcome State Fault Refusal :=
  match runCommand w s with
  | .next t => .next (s.abandon t k)
  | .fault f => .fault f
  | .refused r => .refused r

/-- One action of the host. -/
def runEvent (e : HostEvent) (s : State) : Host.Outcome State Fault Refusal :=
  match e with
  | .command w => runCommand w s
  | .setInput bytes => loadInput bytes s
  | .reset => .next s.resetRegisters
  | .resetDuring w k => runAbandoned w k s

/-- The next action of the host is taken from the queue and carried out; while the host does nothing the block is idle
and keeps everything (60_exceptions.md R287; log 1). -/
def stepHost (s : State) : Host.Outcome State Fault Refusal :=
  match s.host with
  | [] => .next s
  | e :: es => runEvent e (s.setHost es)

/-- The word `w` of `nbits` bits put where the next step takes its command: at the head of the host's actions (log 2). -/
def State.issue (s : State) (nbits w : Nat) : State :=
  s.setHost (.command (BitVec.ofNat 40 (w % 2 ^ nbits)) :: s.host)

end Sys2Proof.Machine
end

