-- ==== Sys2Proof/Machine/Step.lean ====
section
/-! DEFINITION. One step of the machine: one action of the host (00_scope.md R4, R11). -/

namespace Sys2Proof.Machine

/-- One step: the host's next action, a command as a rule, carried out whole (00_scope.md R4). -/
def step (s : State) : Host.Outcome State Fault Refusal := stepHost s

/-- The state whose next step runs the command word `w` (log 2). -/
def State.withFetchWord (s : State) (nbits w : Nat) : State := s.issue nbits w

end Sys2Proof.Machine
end

