-- ==== Sys2Proof/Machine/Assembler.lean ====
section
/-! DEFINITION. The assembler of 30_encoding.md R106 and the pseudo-commands of R107: from a line of text to the host's
actions. The block never sees any of it. Where R106 and R107 are silent the readings below are the model's: DESIGN
CHOICE, safe (log 19). -/

namespace Sys2Proof.Machine

/-! ### Pseudo-commands (30_encoding.md R107) -/

/-- `SET.DIM w, h, f`. -/
def setDim (w h : Word) (f : Flag) : List Instr := [.setW w, .setH h, .setA f]

/-- `CRC.STR "s"`. -/
def crcStr (s : List Byte) : List Instr := s.map .crcUpd

/-- `ADL.STR "s"`. -/
def adlStr (s : List Byte) : List Instr := s.map .adlUpd

/-- `WR.STR "s"`. -/
def wrStr (s : List Byte) : List Instr := s.map .wrB

/-- `WR.TAG "abcd"`. -/
def wrTag (b3 b2 b1 b0 : Byte) : List Instr := [.wrU32be (tag32 b3 b2 b1 b0)]

/-- `CRC.OF "s"`. -/
def crcOf (s : List Byte) : List Instr := .crcInit :: (crcStr s ++ [.crcGet])

/-- `ADL.OF "s"`. -/
def adlOf (s : List Byte) : List Instr := .adlInit :: (adlStr s ++ [.adlGet])

/-- The commands of a list put on the command port, one after another. -/
def issueAll (is : List Instr) : List HostEvent := is.map fun i => .command (encodeWord i)

/-! ### Operands of the assembler syntax (30_encoding.md R106) -/

/-- The value of a digit; letters are hexadecimal digits of either case. -/
def digitOf (c : Char) : Nat :=
  let n := c.toNat
  if 48 ≤ n ∧ n ≤ 57 then n - 48
  else if 65 ≤ n ∧ n ≤ 70 then n - 55
  else if 97 ≤ n ∧ n ≤ 102 then n - 87
  else 16

/-- A number in a base, most significant digit first; no digit is no number. -/
def numberIn (base : Nat) (cs : List Char) : Option Nat :=
  if cs.isEmpty || cs.any (fun c => decide (base ≤ digitOf c)) then none
  else some (cs.foldl (fun n c => n * base + digitOf c) 0)

/-- A decimal number, or a hexadecimal one with `0x` (R106). -/
def numberOf : List Char → Option Nat
  | '0' :: 'x' :: cs => numberIn 16 cs
  | cs => numberIn 10 cs

/-- A number that fits the argument bits the command uses; that a line whose number does not fit assembles to nothing,
where R103 makes only the word illegal, is the model's choice: DESIGN CHOICE, safe (log 19). -/
def operandOf (n : Nat) (cs : List Char) : Option (BitVec n) :=
  (numberOf cs).bind fun v => if v < 2 ^ n then some (BitVec.ofNat n v) else none

/-- An ASCII string in double quotes (00_scope.md R6): its character codes. R6 and R106 do not say whether a double quote
may itself be a character of the string; here it may not, and there is no escape: DESIGN CHOICE, safe (log 19). -/
def quotedOf : List Char → Option (List Byte)
  | '"' :: cs =>
    if cs.getLast? = some '"' ∧ cs.dropLast.all (fun c => c != '"' && decide (c.toNat < 128)) then
      some (cs.dropLast.map fun c => BitVec.ofNat 8 c.toNat)
    else none
  | _ => none

/-- A 4-character string in double quotes, as its `tag32` (R106). -/
def tagOf (cs : List Char) : Option Word :=
  match quotedOf cs with
  | some [b3, b2, b1, b0] => some (tag32 b3 b2 b1 b0)
  | _ => none

/-- The text before the first `c`, and the text after it. -/
def splitAtChar (c : Char) (cs : List Char) : List Char × List Char :=
  (cs.takeWhile (· != c), (cs.dropWhile (· != c)).drop 1)

def trimLeft (cs : List Char) : List Char := cs.dropWhile (· == ' ')

def trim (cs : List Char) : List Char := (trimLeft (trimLeft cs).reverse).reverse

/-- The text up to a comment: a `;` starts one (R106); inside double quotes a `;` is a character of the
string: DESIGN CHOICE, safe (log 19). -/
def beforeComment (quoted : Bool) : List Char → List Char
  | [] => []
  | c :: cs =>
    if c == ';' && !quoted then []
    else c :: beforeComment (if c == '"' then !quoted else quoted) cs

/-! ### Lines -/

/-- A mnemonic of R101 or R107 with its operand text (empty if there is none). -/
def assembleCommand (mnemonic : String) (arg : List Char) : Option (List Instr) :=
  match mnemonic, arg with
  | "CLR", [] => some [.clr]
  | "SET.W", a => (operandOf 32 a).map fun w => [.setW w]
  | "SET.H", a => (operandOf 32 a).map fun h => [.setH h]
  | "SET.A", a => (operandOf 1 a).map fun f => [.setA f]
  | "CRC.INIT", [] => some [.crcInit]
  | "CRC.UPD", a => (operandOf 8 a).map fun d => [.crcUpd d]
  | "CRC.GET", [] => some [.crcGet]
  | "CRC32", [] => some [.crc32]
  | "ADL.INIT", [] => some [.adlInit]
  | "ADL.UPD", a => (operandOf 8 a).map fun d => [.adlUpd d]
  | "ADL.GET", [] => some [.adlGet]
  | "ADLER32", [] => some [.adler32]
  | "WR.B", a => (operandOf 8 a).map fun v => [.wrB v]
  | "WR.D", a => (operandOf 8 a).map fun v => [.wrD v]
  | "WR.U16LE", a => (operandOf 16 a).map fun v => [.wrU16le v]
  | "WR.U32BE", a => (operandOf 32 a).map fun v => [.wrU32be v]
  | "CHUNK", a => ((tagOf a).orElse fun _ => operandOf 32 a).map fun t => [.chunk t]
  | "SIG", [] => some [.sig]
  | "IHDR", [] => some [.ihdr]
  | "IDAT", [] => some [.idat]
  | "IEND", [] => some [.iend]
  | "ENCODE", [] => some [.encode]
  | "SET.DIM", a =>
    let (w, rest) := splitAtChar ',' a
    let (h, f) := splitAtChar ',' rest
    match operandOf 32 (trim w), operandOf 32 (trim h), operandOf 1 (trim f) with
    | some w, some h, some f => some (setDim w h f)
    | _, _, _ => none
  | "CRC.STR", a => (quotedOf a).map crcStr
  | "ADL.STR", a => (quotedOf a).map adlStr
  | "WR.STR", a => (quotedOf a).map wrStr
  | "WR.TAG", a => (tagOf a).map fun t => [.wrU32be t]
  | "CRC.OF", a => (quotedOf a).map crcOf
  | "ADL.OF", a => (quotedOf a).map adlOf
  | _, _ => none

/-- The bytes of the directive `.in`: two hexadecimal digits each, separated by blanks, as R106's examples have them; no
other spelling of a byte is read: DESIGN CHOICE, safe (log 19). -/
def hexBytes : List Char → Option (List Byte)
  | [] => some []
  | ' ' :: cs => hexBytes cs
  | c :: d :: cs =>
    if digitOf c < 16 ∧ digitOf d < 16 then
      match cs with
      | [] => some [BitVec.ofNat 8 (16 * digitOf c + digitOf d)]
      | ' ' :: rest => (hexBytes rest).map fun bs => BitVec.ofNat 8 (16 * digitOf c + digitOf d) :: bs
      | _ => none
    else none
  | _ => none

/-- One line of the assembler (R106): a command, a pseudo-command, the host action `.in`, or nothing. -/
def assembleLine (line : List Char) : Option (List HostEvent) :=
  let text := trim (beforeComment false line)
  if text.isEmpty then some []
  else
    let (m, rest) := splitAtChar ' ' text
    let arg := trim rest
    if m = ['.', 'i', 'n'] then
      if arg = ['"', '"'] then some [.setInput []]
      else if arg.isEmpty then none
      else (hexBytes arg).map fun bs => [.setInput bs]
    else (assembleCommand (String.ofList m) arg).map issueAll

end Sys2Proof.Machine
end

