-- ==== Sys2Proof/Safety.lean ====
section
/-! DEFINITION. What a run may show and what counts as safe, in the terms the claims use (00_scope.md R12; 10_state.md
R22, R24; 20_memory.md R52, R54; 60_exceptions.md R270). -/

namespace Sys2Proof.Machine

/-- What a host can observe (00_scope.md R12): the bytes in the sink, `STATUS` and `RES`. The other registers are write
only or seen only through `CRC.GET` and `ADL.GET`. -/
structure HostView where
  out : List Byte
  status : Byte
  res : Word
  deriving DecidableEq, Repr

def State.hostView (s : State) : HostView := { out := s.out, status := s.status, res := s.res }

/-- A step that neither faults nor is refused. -/
def Completes (o : Host.Outcome State Fault Refusal) : Prop := ∃ t, o = .next t

/-- The host has not asked for the impossible: its next action, if it is a new input buffer, has fewer than 2^64 bytes
(20_memory.md R50). -/
def State.hostLegal (s : State) : Prop :=
  ∀ bytes es, s.host = .setInput bytes :: es → bytes.length < 2 ^ Config.inLenBits

/-- What every step keeps: the input buffer is in canonical form and ends below `IN_LEN` (20_memory.md R50), and
`STATUS` holds a code 0 to 6 (10_state.md R24). -/
structure State.Inv (s : State) : Prop where
  inputCanonical : Memory.wf s.input = true
  inputBelowEnd : Memory.below s.inLen.toNat s.input = true
  statusIsCode : s.status.toNat ≤ 6

/-- Both Adler sums are reduced (10_state.md R22). -/
def State.AdlerReduced (s : State) : Prop := s.a.toNat < adlerMod ∧ s.b.toNat < adlerMod

/-- `o` is the end of a command that a refused byte stopped after the bytes `bs` were accepted (60_exceptions.md R278):
`OUT` has grown by `bs`, `STATUS` is 4, `crc`, `a`, `b` are unspecified, and nothing else the spec names has changed.
The counter `draws` is the model's own. -/
def SinkFailed (s : State) (bs : List Byte) (o : Host.Outcome State Fault Refusal) : Prop :=
  ∃ c a b n, o = .next { s with
    out := s.out ++ bs, sink := s.sink.drop (bs.length + 1), status := 4, crc := c, a := a, b := b, draws := n }

/-- The words with opcode `op` (30_encoding.md R100 to R103): an argument that fits the low `n` bits is the operand of
the command `mk`, and any other argument makes the word illegal. -/
def EncodedAs (op : Byte) (n : Nat) (mk : BitVec n → Instr) : Prop :=
  (∀ v : BitVec n, decode (commandWord op (v.setWidth 32)) = .ok (mk v)) ∧
  ∀ arg : Word, 2 ^ n ≤ arg.toNat → ∀ i, decode (commandWord op arg) ≠ .ok i

/-- The error a command reports before its first `Emit`, if any (60_exceptions.md R270, R277). -/
def commandError : Instr → State → Option ErrorKind
  | .clr, _ => none
  | .setW _, _ => none
  | .setH _, _ => none
  | .setA _, _ => none
  | .crcInit, _ => none
  | .crcUpd _, _ => none
  | .crcGet, _ => none
  | .crc32, _ => none
  | .adlInit, _ => none
  | .adlUpd _, _ => none
  | .adlGet, _ => none
  | .adler32, _ => none
  | .wrB _, _ => none
  | .wrD _, _ => none
  | .wrU16le _, _ => none
  | .wrU32be _, _ => none
  | .chunk _, s => payloadError s
  | .sig, _ => none
  | .ihdr, s => dimensionError s
  | .idat, s => imageError s
  | .iend, _ => none
  | .encode, s => imageError s

/-- The full output sequence of a command, `S` of 20_memory.md R54: what it appends to `OUT` when every `Emit` is
accepted. -/
def commandOutput : Instr → State → List Byte
  | .clr, _ => []
  | .setW _, _ => []
  | .setH _, _ => []
  | .setA _, _ => []
  | .crcInit, _ => []
  | .crcUpd _, _ => []
  | .crcGet, _ => []
  | .crc32, _ => []
  | .adlInit, _ => []
  | .adlUpd _, _ => []
  | .adlGet, _ => []
  | .adler32, _ => []
  | .wrB v, _ => [v]
  | .wrD v, _ => [v]
  | .wrU16le v, _ => le16 v
  | .wrU32be v, _ => be32 v
  | .chunk tag, s => chunkBytes tag s.inBytes
  | .sig, _ => signature
  | .ihdr, s => chunkBytes tagIHDR (ihdrPayload s.width s.height s.alpha)
  | .idat, s => chunkBytes tagIDAT (idatPayload s.width s.height s.alpha s.inBytes)
  | .iend, _ => chunkBytes tagIEND []
  | .encode, s => pngFile s.width s.height s.alpha s.inBytes

end Sys2Proof.Machine
end

