-- ==== Sys2Proof/Certificates/Slice0/Obligations.lean ====
section
/-! DEFINITION. The statements for the provers. Each docstring names the rule of spec/ it comes from. -/

open Sys2Proof Sys2Proof.Machine

/-! ### Configuration and reset -/

/-- 46_config_system.md R250, R251, R252: any value is stored, `STATUS` is 0, nothing else changes; what `ALPHA`
selects. -/
def Obligations.SetCommandsStoreAnyValue : Prop :=
  (EncodedAs 0x02 32 .setW ∧ EncodedAs 0x03 32 .setH ∧ EncodedAs 0x04 1 .setA) ∧
  (channels 0 = 3 ∧ colorType 0 = 2 ∧ channels 1 = 4 ∧ colorType 1 = 6) ∧
  ∀ s : State,
    (∀ w, exec (.setW w) s = .next { s with width := w, status := 0 }) ∧
    (∀ h, exec (.setH h) s = .next { s with height := h, status := 0 }) ∧
    (∀ f, exec (.setA f) s = .next { s with alpha := f, status := 0 })

/-- 46_config_system.md R253: every register to its reset value, `OUT` and `IN` untouched; a following `ENCODE` reports
`InvalidDimensions`. -/
def Obligations.ClrRestoresEveryRegister : Prop :=
  EncodedAs 0x01 0 (fun _ => .clr) ∧
  ∀ s : State, ∃ t, exec .clr s = .next t ∧ t = { s with
      crc := 0xFFFFFFFF, a := 1, b := 0, res := 0, status := 0, width := 0, height := 0, alpha := 0 } ∧
    exec .encode t = .next { t with status := 1 }

/-- 10_state.md R35: the registers after hardware reset and after `CLR`; `IN`, `OUT` and the rest are not affected; an
`ENCODE` before any `SET` reports `InvalidDimensions`. -/
def Obligations.ResetValuesOfTheRegisters : Prop :=
  (State.reset.crc = 0xFFFFFFFF ∧ State.reset.a = 1 ∧ State.reset.b = 0 ∧ State.reset.res = 0 ∧
    State.reset.status = 0 ∧ State.reset.width = 0 ∧ State.reset.height = 0 ∧ State.reset.alpha = 0) ∧
  (∀ (s : State) es, s.host = .reset :: es → step s = .next { s with
    host := es, crc := 0xFFFFFFFF, a := 1, b := 0, res := 0, status := 0, width := 0, height := 0, alpha := 0 }) ∧
  (∀ s : State, exec .clr s = .next { s with
    crc := 0xFFFFFFFF, a := 1, b := 0, res := 0, status := 0, width := 0, height := 0, alpha := 0 }) ∧
  exec .encode State.reset = .next { State.reset with status := 1 }

/-! ### CRC-32 -/

/-- 40_crc32.md R123, R124, R125. -/
def Obligations.CrcPrimitiveCommands : Prop :=
  (EncodedAs 0x10 0 (fun _ => .crcInit) ∧ EncodedAs 0x11 8 .crcUpd ∧ EncodedAs 0x12 0 (fun _ => .crcGet)) ∧
  ∀ s : State,
    exec .crcInit s = .next { s with crc := 0xFFFFFFFF, status := 0 } ∧
    (∀ d, exec (.crcUpd d) s = .next { s with crc := crcStep s.crc d, status := 0 }) ∧
    exec .crcGet s = .next { s with res := ~~~s.crc, status := 0 }

/-- 40_crc32.md R126: `CRC32` of any input buffer, the empty one included. -/
def Obligations.CrcOfInputBuffer : Prop :=
  EncodedAs 0x13 0 (fun _ => .crc32) ∧
  ∀ s : State, exec .crc32 s = .next { s with
    crc := s.inBytes.foldl crcStep 0xFFFFFFFF, res := ~~~(s.inBytes.foldl crcStep 0xFFFFFFFF), status := 0 }

/-- 40_crc32.md R121: the nibble-table step is the bit-serial step. -/
def Obligations.NibbleStepEqualsBitSerialStep : Prop :=
  ∀ (c : Word) (d : Byte), crcStep c d = crcStepBits c d

/-- 10_state.md R28, R29: the listed entries, and each is what the generation loop gives. -/
def Obligations.CrcTableFollowsGenerationLoop : Prop :=
  (List.range 16).map (fun i => crcEntry (BitVec.ofNat 4 i)) =
    [ 0x00000000, 0x1DB71064, 0x3B6E20C8, 0x26D930AC, 0x76DC4190, 0x6B6B51F4, 0x4DB26158, 0x5005713C,
      0xEDB88320, 0xF00F9344, 0xD6D6A3E8, 0xCB61B38C, 0x9B64C2B0, 0x86D3D2D4, 0xA00AE278, 0xBDBDF21C ] ∧
  ∀ i : BitVec 4, crcEntry i = crcEntryGenerated i

/-- 40_crc32.md section 3: the step is a bijection of the register, and a byte change always changes the register. -/
def Obligations.CrcStepIsBijective : Prop :=
  (∀ d : Byte, Function.Bijective fun c : Word => crcStep c d) ∧
  ∀ (c : Word) (d e : Byte), crcStep c d = crcStep c e → d = e

/-- 40_crc32.md R122: the contract, the empty sequence, and incremental computation. -/
def Obligations.CrcContractIsIncremental : Prop :=
  (∀ bs, crc32 bs = ~~~(bs.foldl crcStep 0xFFFFFFFF)) ∧ crc32 [] = 0 ∧
  ∀ bs cs, ~~~(cs.foldl crcStep (bs.foldl crcStep 0xFFFFFFFF)) = crc32 (bs ++ cs)

/-- 30_encoding.md section on pseudo-commands and 40_crc32.md section 1: the commands of `CRC.OF "s"` put on the command
port deliver `crc32(s)` in `RES`, whatever the state. -/
def Obligations.CrcPseudoCommandDeliversCrc : Prop :=
  ∀ (s : State) bs es, s.host = issueAll (crcOf bs) ++ es →
    Sys2Proof.core.run (bs.length + 2) s = .next { s with
      host := es, crc := bs.foldl crcStep 0xFFFFFFFF, res := crc32 bs, status := 0 }

/-! ### Adler-32 -/

/-- 41_adler32.md R140: exact sums, the new `a` in the new `b`, both results reduced. -/
def Obligations.AdlerStepUsesNewLowSum : Prop :=
  ∀ (a b : Word) (d : Byte), a.toNat ≤ 65520 → b.toNat ≤ 65520 →
    (adlerStep (a, b) d).1.toNat = (a.toNat + d.toNat) % 65521 ∧
    (adlerStep (a, b) d).2.toNat = (b.toNat + (a.toNat + d.toNat) % 65521) % 65521 ∧
    (adlerStep (a, b) d).1.toNat ≤ 65520 ∧ (adlerStep (a, b) d).2.toNat ≤ 65520

/-- 41_adler32.md R142, R143, R144. `ADL.UPD` is stated by R140 for sums up to 65520; above them (only after a sink
failure) it is stated only that it completes and touches nothing else. -/
def Obligations.AdlerPrimitiveCommands : Prop :=
  (EncodedAs 0x20 0 (fun _ => .adlInit) ∧ EncodedAs 0x21 8 .adlUpd ∧ EncodedAs 0x22 0 (fun _ => .adlGet)) ∧
  ∀ s : State,
    exec .adlInit s = .next { s with a := 1, b := 0, status := 0 } ∧
    (∀ d, (∃ a b, exec (.adlUpd d) s = .next { s with a := a, b := b, status := 0 }) ∧
      (s.a.toNat ≤ 65520 → s.b.toNat ≤ 65520 → exec (.adlUpd d) s = .next { s with
        a := BitVec.ofNat 32 ((s.a.toNat + d.toNat) % 65521)
        b := BitVec.ofNat 32 ((s.b.toNat + (s.a.toNat + d.toNat) % 65521) % 65521)
        status := 0 })) ∧
    exec .adlGet s = .next { s with res := (s.b <<< 16) ||| s.a, status := 0 }

/-- 41_adler32.md R145: `ADLER32` of any input buffer, the empty one included. -/
def Obligations.AdlerOfInputBuffer : Prop :=
  EncodedAs 0x23 0 (fun _ => .adler32) ∧
  ∀ s : State, exec .adler32 s = .next { s with
    a := (s.inBytes.foldl adlerStep (1, 0)).1, b := (s.inBytes.foldl adlerStep (1, 0)).2
    res := adler32 s.inBytes, status := 0 }

/-- 41_adler32.md R141: the value joins the two reduced sums, `b * 65536 + a`; the empty and the one-byte sequence. -/
def Obligations.AdlerValueJoinsTheSums : Prop :=
  (∀ bs : List Byte,
    let p := bs.foldl adlerStep (1, 0)
    p.1.toNat ≤ 65520 ∧ p.2.toNat ≤ 65520 ∧ adler32 bs = (p.2 <<< 16) ||| p.1 ∧
      (adler32 bs).toNat = p.2.toNat * 65536 + p.1.toNat) ∧
  adler32 [] = 1 ∧
  ∀ d : Byte, (adler32 [d]).toNat = (1 + d.toNat) * 65536 + (1 + d.toNat)

/-- 41_adler32.md R146: sums taken without a remainder over any block agree with the per-byte sums at its end. -/
def Obligations.AdlerBlockwiseSumsAgree : Prop :=
  ∀ (a b : Word) (bs : List Byte), a.toNat ≤ 65520 → b.toNat ≤ 65520 →
    let wide := bs.foldl (fun (p : Nat × Nat) (d : Byte) => (p.1 + d.toNat, p.2 + (p.1 + d.toNat))) (a.toNat, b.toNat)
    (bs ≠ [] → (bs.foldl adlerStep (a, b)).1.toNat = wide.1 % 65521 ∧
      (bs.foldl adlerStep (a, b)).2.toNat = wide.2 % 65521) ∧
    (bs = [] → bs.foldl adlerStep (a, b) = (a, b))

/-- 10_state.md section 2: the sums stay reduced over every command that a sink failure does not stop (after one they are
unspecified, 60_exceptions.md section 3; log 5). -/
def Obligations.AdlerSumsStayReduced : Prop :=
  ∀ (i : Instr) (s : State), s.a.toNat ≤ 65520 → s.b.toNat ≤ 65520 →
    ∃ t, exec i s = .next t ∧ (t.status ≠ 4 → t.a.toNat ≤ 65520 ∧ t.b.toNat ≤ 65520)

/-! ### The writer -/

/-- 42_writer.md R161: `WR.B` when the sink accepts and when it refuses. -/
def Obligations.WriteByteCommand : Prop :=
  EncodedAs 0x30 8 .wrB ∧
  ∀ (s : State) (v : Byte),
    (s.sink.answer = .accept → exec (.wrB v) s = .next { s with
      out := s.out ++ [v], sink := s.sink.rest, crc := crcStep s.crc v, status := 0 }) ∧
    (s.sink.answer = .refuse → SinkFailed s [] (exec (.wrB v) s))

/-- 42_writer.md R162: `WR.D` when the sink accepts and when it refuses. `adler_step` is stated by R140 for sums up to
65520; above them (only after a sink failure) the new sums are left open. -/
def Obligations.WriteDataByteCommand : Prop :=
  EncodedAs 0x31 8 .wrD ∧
  ∀ (s : State) (v : Byte),
    (s.sink.answer = .accept → ∃ a b, exec (.wrD v) s = .next { s with
        out := s.out ++ [v], sink := s.sink.rest, crc := crcStep s.crc v, a := a, b := b, status := 0 } ∧
      (s.a.toNat ≤ 65520 → s.b.toNat ≤ 65520 → (a, b) = adlerStep (s.a, s.b) v)) ∧
    (s.sink.answer = .refuse → SinkFailed s [] (exec (.wrD v) s))

/-- 42_writer.md R163: the low byte first. -/
def Obligations.WriteLittleEndianHalfword : Prop :=
  EncodedAs 0x32 16 .wrU16le ∧
  ∀ (s : State) (v : BitVec 16),
    (Sink.accepts 2 s.sink = true → exec (.wrU16le v) s = .next { s with
      out := s.out ++ [v.extractLsb' 0 8, v.extractLsb' 8 8], sink := s.sink.drop 2
      crc := crcStep (crcStep s.crc (v.extractLsb' 0 8)) (v.extractLsb' 8 8), status := 0 }) ∧
    (∀ k, k < 2 → Sink.refusesAfter k s.sink = true →
      SinkFailed s ([v.extractLsb' 0 8, v.extractLsb' 8 8].take k) (exec (.wrU16le v) s))

/-- 42_writer.md R164: the high byte first. -/
def Obligations.WriteBigEndianWord : Prop :=
  EncodedAs 0x33 32 .wrU32be ∧
  ∀ (s : State) (v : Word),
    let bytes : List Byte := [v.extractLsb' 24 8, v.extractLsb' 16 8, v.extractLsb' 8 8, v.extractLsb' 0 8]
    (Sink.accepts 4 s.sink = true → exec (.wrU32be v) s = .next { s with
      out := s.out ++ bytes, sink := s.sink.drop 4, crc := bytes.foldl crcStep s.crc, status := 0 }) ∧
    (∀ k, k < 4 → Sink.refusesAfter k s.sink = true → SinkFailed s (bytes.take k) (exec (.wrU32be v) s))

/-! ### The framer -/

/-- 43_chunk_framer.md R181: every tag, every payload length, every answer of the sink. -/
def Obligations.ChunkFramesTheInputBuffer : Prop :=
  EncodedAs 0x40 32 .chunk ∧
  ∀ (s : State) (tag : Word),
    (s.inLen.toNat > s.cfg.maxChunkLen.toNat → exec (.chunk tag) s = .next { s with status := 5 }) ∧
    (s.inLen.toNat ≤ s.cfg.maxChunkLen.toNat →
      let covered := be32 tag ++ s.inBytes
      let chunk := be32 (BitVec.ofNat 32 s.inLen.toNat) ++ covered ++ be32 (crc32 covered)
      (Sink.accepts (12 + s.inLen.toNat) s.sink = true → exec (.chunk tag) s = .next { s with
        out := s.out ++ chunk, sink := s.sink.drop (12 + s.inLen.toNat)
        crc := covered.foldl crcStep 0xFFFFFFFF, status := 0 }) ∧
      (∀ k, k < 12 + s.inLen.toNat → Sink.refusesAfter k s.sink = true →
        SinkFailed s (chunk.take k) (exec (.chunk tag) s)))

/-- 43_chunk_framer.md R182: the signature, no checksum touched. -/
def Obligations.SignatureIsNotFolded : Prop :=
  EncodedAs 0x41 0 (fun _ => .sig) ∧
  ∀ s : State,
    let bytes : List Byte := [0x89, 0x50, 0x4E, 0x47, 0x0D, 0x0A, 0x1A, 0x0A]
    (Sink.accepts 8 s.sink = true →
      exec .sig s = .next { s with out := s.out ++ bytes, sink := s.sink.drop 8, status := 0 }) ∧
    (∀ k, k < 8 → Sink.refusesAfter k s.sink = true → SinkFailed s (bytes.take k) (exec .sig s))

/-- 43_chunk_framer.md R183, R184: the 25 bytes of the header chunk, and the only check `IHDR` makes. -/
def Obligations.HeaderChunkFromRegisters : Prop :=
  EncodedAs 0x42 0 (fun _ => .ihdr) ∧
  ∀ s : State,
    (s.width = 0 ∨ s.height = 0 → exec .ihdr s = .next { s with status := 1 }) ∧
    (s.width ≠ 0 → s.height ≠ 0 →
      let payload := be32 s.width ++ be32 s.height ++ [0x08, if s.alpha = 1 then 0x06 else 0x02, 0x00, 0x00, 0x00]
      let covered := [0x49, 0x48, 0x44, 0x52] ++ payload
      let chunk := [0x00, 0x00, 0x00, 0x0D] ++ covered ++ be32 (crc32 covered)
      (Sink.accepts 25 s.sink = true → exec .ihdr s = .next { s with
        out := s.out ++ chunk, sink := s.sink.drop 25, crc := covered.foldl crcStep 0xFFFFFFFF, status := 0 }) ∧
      (∀ k, k < 25 → Sink.refusesAfter k s.sink = true → SinkFailed s (chunk.take k) (exec .ihdr s)))

/-- 43_chunk_framer.md R185, 30_encoding.md R85: the constant twelve bytes. -/
def Obligations.EndChunkIsConstant : Prop :=
  EncodedAs 0x44 0 (fun _ => .iend) ∧
  ∀ s : State,
    let bytes : List Byte := [0x00, 0x00, 0x00, 0x00, 0x49, 0x45, 0x4E, 0x44, 0xAE, 0x42, 0x60, 0x82]
    (Sink.accepts 12 s.sink = true → exec .iend s = .next { s with
      out := s.out ++ bytes, sink := s.sink.drop 12, crc := 0x51BD9F7D, status := 0 }) ∧
    (∀ k, k < 12 → Sink.refusesAfter k s.sink = true → SinkFailed s (bytes.take k) (exec .iend s)) ∧
    crc32 [0x49, 0x45, 0x4E, 0x44] = 0xAE426082

/-- 43_chunk_framer.md section 3: whatever a framing command appended, its first four bytes are the payload length and
its last four the CRC-32 of the bytes between. -/
def Obligations.FramedChunksCarryLengthAndCrc : Prop :=
  ∀ (i : Instr) (s : State), (∃ tag, i = .chunk tag) ∨ i = .ihdr ∨ i = .idat ∨ i = .iend →
    ∃ t, exec i s = .next t ∧ (t.status = 0 →
      let d := t.out.drop s.out.length
      12 ≤ d.length ∧ t.out = s.out ++ d ∧
      d.take 4 = be32 (BitVec.ofNat 32 (d.length - 12)) ∧ d.length - 12 < 2 ^ 32 ∧
      d.drop (d.length - 4) = be32 (crc32 ((d.drop 4).take (d.length - 8))))

/-! ### The IDAT builder -/

/-- 44_idat_deflate.md R210, R206: the streamed chunk is `be32(idat_len) ++ "IDAT" ++ idat_payload ++ CRC`; `a`, `b` end
as the sums of the uncompressed stream; a refused byte leaves a strict prefix; an error changes `STATUS` alone. -/
def Obligations.IdatStreamsThePayloadChunk : Prop :=
  EncodedAs 0x43 0 (fun _ => .idat) ∧
  ∀ s : State,
    (∀ e, imageError s = some e → exec .idat s = .next { s with status := e.code }) ∧
    (imageError s = none →
      let payload := idatPayload s.width s.height s.alpha s.inBytes
      let covered := [0x49, 0x44, 0x41, 0x54] ++ payload
      let n := idatLen s.width s.height s.alpha
      let chunk := be32 (BitVec.ofNat 32 n) ++ covered ++ be32 (crc32 covered)
      let sums := (uncompressed s.width s.height s.alpha s.inBytes).foldl adlerStep (1, 0)
      payload.length = n ∧
      (Sink.accepts (12 + n) s.sink = true → exec .idat s = .next { s with
        out := s.out ++ chunk, sink := s.sink.drop (12 + n)
        crc := covered.foldl crcStep 0xFFFFFFFF, a := sums.1, b := sums.2, status := 0 }) ∧
      (∀ k, k < 12 + n → Sink.refusesAfter k s.sink = true → SinkFailed s (chunk.take k) (exec .idat s)))

/-- 44_idat_deflate.md R209, 45_encode_driver.md R232: the four pre-checks of `IDAT` and `ENCODE`, in their order, and the
largest widths the third accepts. -/
def Obligations.ImagePreChecksInOrder : Prop :=
  (∀ w : Word, (rowStride w 0 ≤ 65535 ↔ w.toNat ≤ 21844) ∧ (rowStride w 1 ≤ 65535 ↔ w.toNat ≤ 16383)) ∧
  ∀ (i : Instr) (s : State), i = .idat ∨ i = .encode →
    let rowStride := s.width.toNat * (if s.alpha = 1 then 4 else 3) + 1
    let expectLen := s.width.toNat * s.height.toNat * (if s.alpha = 1 then 4 else 3)
    let idatLen := 2 + s.height.toNat * (5 + rowStride) + 4
    (s.width = 0 ∨ s.height = 0 → exec i s = .next { s with status := 1 }) ∧
    (s.width ≠ 0 → s.height ≠ 0 → s.inLen.toNat ≠ expectLen → exec i s = .next { s with status := 2 }) ∧
    (s.width ≠ 0 → s.height ≠ 0 → s.inLen.toNat = expectLen → rowStride > 65535 →
      exec i s = .next { s with status := 3 }) ∧
    (s.width ≠ 0 → s.height ≠ 0 → s.inLen.toNat = expectLen → rowStride ≤ 65535 →
      idatLen > s.cfg.maxChunkLen.toNat → exec i s = .next { s with status := 5 })

/-- 00_scope.md section 4, exact arithmetic: a product of 2^64 or more never matches `IN_LEN`, whatever it is modulo
2^64. -/
def Obligations.ExpectedLengthNeverWraps : Prop :=
  ∀ (i : Instr) (s : State), i = .idat ∨ i = .encode → s.width ≠ 0 → s.height ≠ 0 →
    2 ^ 64 ≤ s.width.toNat * s.height.toNat * (if s.alpha = 1 then 4 else 3) →
    exec i s = .next { s with status := 2 }

/-- 44_idat_deflate.md R202, 30_encoding.md R92: the length of the payload and of the chunk, exactly. -/
def Obligations.IdatLengthIsExact : Prop :=
  ∀ (w h : Word) (f : Flag) (pix : List Byte), pix.length = w.toNat * h.toNat * channels f →
    (idatPayload w h f pix).length = 2 + h.toNat * (5 + rowStride w f) + 4 ∧
    (idatPayload w h f pix).length = 6 + h.toNat * (rowBytes w f + 6) ∧
    (chunkBytes tagIDAT (idatPayload w h f pix)).length = 12 + (2 + h.toNat * (5 + rowStride w f) + 4)

/-- 30_encoding.md R87, R88: the block header, `LEN` and `NLEN` of every row, as bytes and as numbers. -/
def Obligations.StoredBlockHeaderAndLengths : Prop :=
  ∀ (w h : Word) (f : Flag) (y : Nat), rowStride w f ≤ 65535 → y < h.toNat →
    ∃ l0 l1 n0 n1 : Byte,
      rowPrefix w h f y = [if y = h.toNat - 1 then 0x01 else 0x00, l0, l1, n0, n1] ∧
      l0.toNat + 256 * l1.toNat = rowStride w f ∧
      n0.toNat = 255 - l0.toNat ∧ n1.toNat = 255 - l1.toNat ∧
      n0.toNat + 256 * n1.toNat = 65535 - rowStride w f

/-! ### The encoder driver -/

/-- 45_encode_driver.md R231: `ENCODE` appends the whole file, or a strict prefix of it, or nothing. -/
def Obligations.EncodeWritesThePngFile : Prop :=
  EncodedAs 0x45 0 (fun _ => .encode) ∧
  ∀ s : State,
    (∀ e, imageError s = some e → exec .encode s = .next { s with status := e.code }) ∧
    (imageError s = none →
      let file := pngFile s.width s.height s.alpha s.inBytes
      let n := 63 + s.height.toNat * (5 + rowStride s.width s.alpha)
      let sums := (uncompressed s.width s.height s.alpha s.inBytes).foldl adlerStep (1, 0)
      file.length = n ∧
      (Sink.accepts n s.sink = true → exec .encode s = .next { s with
        out := s.out ++ file, sink := s.sink.drop n
        crc := 0x51BD9F7D, a := sums.1, b := sums.2, status := 0 }) ∧
      (∀ k, k < n → Sink.refusesAfter k s.sink = true → SinkFailed s (file.take k) (exec .encode s)))

/-- 30_encoding.md R93: which offset of `OUT` holds which field after an `ENCODE` into an empty sink. -/
def Obligations.EncodedFileLayout : Prop :=
  ∀ s : State, s.out = [] → imageError s = none →
    let rs := rowStride s.width s.alpha
    let h := s.height.toNat
    Sink.accepts (63 + h * (5 + rs)) s.sink = true →
    ∃ t, exec .encode s = .next t ∧
      let field := fun off n : Nat => (t.out.drop off).take n
      let row := fun y : Nat => 43 + y * (5 + rs)
      t.out.length = 63 + h * (5 + rs) ∧
      field 0 8 = [0x89, 0x50, 0x4E, 0x47, 0x0D, 0x0A, 0x1A, 0x0A] ∧
      field 8 4 = [0x00, 0x00, 0x00, 0x0D] ∧ field 12 4 = [0x49, 0x48, 0x44, 0x52] ∧
      field 16 4 = be32 s.width ∧ field 20 4 = be32 s.height ∧
      field 24 5 = [0x08, if s.alpha = 1 then 0x06 else 0x02, 0x00, 0x00, 0x00] ∧
      field 29 4 = be32 (crc32 (field 12 17)) ∧
      field 33 4 = be32 (BitVec.ofNat 32 (2 + h * (5 + rs) + 4)) ∧
      field 37 4 = [0x49, 0x44, 0x41, 0x54] ∧ field 41 2 = [0x78, 0x01] ∧
      (∀ y, y < h →
        field (row y) 1 = [if y = h - 1 then 0x01 else 0x00] ∧
        field (row y + 1) 2 = le16 (BitVec.ofNat 16 rs) ∧
        field (row y + 3) 2 = le16 (BitVec.ofNat 16 (65535 - rs)) ∧
        field (row y + 5) 1 = [0x00] ∧
        field (row y + 6) (rs - 1) = (s.inBytes.drop (y * rowBytes s.width s.alpha)).take (rowBytes s.width s.alpha)) ∧
      field (row h) 4 = be32 (adler32 ((List.range h).flatMap fun y => field (row y + 5) rs)) ∧
      field (row h + 4) 4 = be32 (crc32 (field 37 (row h + 4 - 37))) ∧
      field (row h + 8) 12 = [0x00, 0x00, 0x00, 0x00, 0x49, 0x45, 0x4E, 0x44, 0xAE, 0x42, 0x60, 0x82]

/-- 45_encode_driver.md R233: `SIG`, `IHDR`, `IDAT`, `IEND` end in the very state of one `ENCODE` when nothing fails; when
a check of `IHDR` or of `IDAT` fails the sequence has written 8 or 33 bytes, and `ENCODE` none. -/
def Obligations.FourCommandsEqualEncode : Prop :=
  ∀ (s : State) es, s.host = issueAll [.sig, .ihdr, .idat, .iend] ++ es →
    (imageError s = none →
      Sink.accepts (63 + s.height.toNat * (5 + rowStride s.width s.alpha)) s.sink = true →
      ∃ t, Sys2Proof.core.run 4 s = .next t ∧ step { s with host := issueAll [.encode] ++ es } = .next t) ∧
    (s.width = 0 ∨ s.height = 0 → Sink.accepts 8 s.sink = true →
      ∃ t, Sys2Proof.core.run 2 s = .next t ∧ t.status = 1 ∧ t.out = s.out ++ signature ∧
        exec .encode s = .next { s with status := 1 }) ∧
    (∀ e, imageError s = some e → s.width ≠ 0 → s.height ≠ 0 → Sink.accepts 33 s.sink = true →
      ∃ t, Sys2Proof.core.run 3 s = .next t ∧ t.status = e.code ∧
        t.out = s.out ++ signature ++ chunkBytes tagIHDR (ihdrPayload s.width s.height s.alpha) ∧
        exec .encode s = .next { s with status := e.code })

/-- 20_memory.md section 3, idempotence: two `ENCODE`s append the same bytes twice. -/
def Obligations.EncodeTwiceAppendsTwice : Prop :=
  ∀ (s : State) es, s.host = issueAll [.encode, .encode] ++ es → imageError s = none →
    Sink.accepts (2 * (63 + s.height.toNat * (5 + rowStride s.width s.alpha))) s.sink = true →
    ∃ t u bs, step s = .next t ∧ step t = .next u ∧ t.out = s.out ++ bs ∧ u.out = s.out ++ bs ++ bs ∧
      t.status = 0 ∧ u.status = 0

/-! ### Whole-machine rules -/

/-- 20_memory.md R54, 60_exceptions.md R278: an illegal word and a pre-check error change `STATUS` alone; an accepted
command appends its whole output; a refused one appends a strict prefix, reports 4, leaves `crc`, `a`, `b` unspecified, and
keeps `RES`, the configuration and `IN`. A command that writes `crc`, or `a` and `b`, without reading them gives them a
value again: where it completes, its next state is the same whatever they held. -/
def Obligations.OutputIsWholeOrStrictPrefix : Prop :=
  (∀ (s : State) w es, s.host = .command w :: es → (∀ i, decode w ≠ .ok i) →
    step s = .next { s with host := es, status := 6 }) ∧
  (∀ (i : Instr) (s : State) (c : Word),
    (i ∈ [.clr, .crcInit, .crc32, .ihdr, .idat, .iend, .encode] ∨ ∃ tag, i = .chunk tag) →
    commandError i s = none → Sink.accepts (commandOutput i s).length s.sink = true →
    exec i { s with crc := c } = exec i s) ∧
  (∀ (i : Instr) (s : State) (a b : Word), i ∈ [.clr, .adlInit, .adler32, .idat, .encode] →
    commandError i s = none → Sink.accepts (commandOutput i s).length s.sink = true →
    exec i { s with a := a, b := b } = exec i s) ∧
  ∀ (i : Instr) (s : State),
    (∀ e, commandError i s = some e → exec i s = .next { s with status := e.code }) ∧
    (commandError i s = none →
      (Sink.accepts (commandOutput i s).length s.sink = true →
        ∃ t, exec i s = .next t ∧ t.out = s.out ++ commandOutput i s ∧
          t.sink = s.sink.drop (commandOutput i s).length ∧ t.status = 0) ∧
      (∀ k, k < (commandOutput i s).length → Sink.refusesAfter k s.sink = true →
        SinkFailed s ((commandOutput i s).take k) (exec i s)))

/-- 20_memory.md R52: no command reads `IN` at or beyond `IN_LEN`, so no command and no step stops. -/
def Obligations.NoCommandReadsBeyondInput : Prop :=
  (∀ (i : Instr) (s : State), Completes (exec i s)) ∧ ∀ s : State, s.hostLegal → Completes (step s)

/-- 10_state.md R24: the codes; every decoded command overwrites `STATUS`, with a code 0 to 5, and nothing
it does depends on the old one (after a sink failure `crc`, `a`, `b` are unspecified, and nothing is said of them). -/
def Obligations.StatusIsOverwrittenByEveryCommand : Prop :=
  (ErrorKind.invalidDimensions.code = 1 ∧ ErrorKind.bufferSizeMismatch.code = 2 ∧ ErrorKind.rowTooLarge.code = 3 ∧
    ErrorKind.sinkWriteFailure.code = 4 ∧ ErrorKind.chunkTooLarge.code = 5 ∧ ErrorKind.illegalCommand.code = 6) ∧
  (∀ (s : State) w es, s.host = .command w :: es → (∀ i, decode w ≠ .ok i) → ∃ t, step s = .next t ∧ t.status = 6) ∧
  ∀ (i : Instr) (s : State) (x : Byte),
    ∃ t t', exec i s = .next t ∧ exec i { s with status := x } = .next t' ∧
      t'.status = t.status ∧ t.status.toNat ≤ 5 ∧ (t.status ≠ 4 → t' = t) ∧
      (∀ e, commandError i s = some e → t.status = e.code) ∧
      (commandError i s = none → Sink.accepts (commandOutput i s).length s.sink = true → t.status = 0) ∧
      (commandError i s = none → Sink.accepts (commandOutput i s).length s.sink = false → t.status = 4)

/-- 10_state.md R25: which commands write `RES`, and what. -/
def Obligations.ResultRegisterWriters : Prop :=
  ∀ (i : Instr) (s : State), ∃ t, exec i s = .next t ∧
    (i = .crcGet ∨ i = .crc32 → t.res = ~~~t.crc) ∧
    (i = .adlGet ∨ i = .adler32 → t.res = (t.b <<< 16) ||| t.a) ∧
    (i = .clr → t.res = 0) ∧
    (i ≠ .crcGet → i ≠ .crc32 → i ≠ .adlGet → i ≠ .adler32 → i ≠ .clr → t.res = s.res)

/-- 10_state.md section 1, the "written by" column, for every command: the frame of the configuration registers, of the
accumulators (unless a sink failure leaves them unspecified), and of everything outside the block but `OUT` and the
sink's answers. -/
def Obligations.RegisterFrameOfEveryCommand : Prop :=
  ∀ (i : Instr) (s : State), ∃ t, exec i s = .next t ∧
    ((∀ w, i ≠ .setW w) → i ≠ .clr → t.width = s.width) ∧
    ((∀ h, i ≠ .setH h) → i ≠ .clr → t.height = s.height) ∧
    ((∀ f, i ≠ .setA f) → i ≠ .clr → t.alpha = s.alpha) ∧
    (t.status ≠ 4 → (i ∈ [.adlInit, .adlGet, .adler32, .crcGet, .sig] ∨ (∃ d, i = .adlUpd d) ∨ (∃ w, i = .setW w) ∨
      (∃ h, i = .setH h) ∨ (∃ f, i = .setA f)) → t.crc = s.crc) ∧
    (t.status ≠ 4 → (i ∈ [.crcInit, .crcGet, .crc32, .adlGet, .sig, .ihdr, .iend] ∨ (∃ d, i = .crcUpd d) ∨
      (∃ v, i = .wrB v) ∨ (∃ v, i = .wrU16le v) ∨ (∃ v, i = .wrU32be v) ∨ (∃ tag, i = .chunk tag) ∨
      (∃ w, i = .setW w) ∨ (∃ h, i = .setH h) ∨ (∃ f, i = .setA f)) → t.a = s.a ∧ t.b = s.b) ∧
    t.input = s.input ∧ t.inLen = s.inLen ∧ (∀ off, t.readIn off = s.readIn off) ∧ t.cfg = s.cfg ∧ t.host = s.host

/-- 10_state.md R31, 60_exceptions.md section 1: `OUT` only grows, at every step; reset, a new buffer and the commands
that never call `Emit` leave it and the sink as they are. -/
def Obligations.OutputOnlyGrows : Prop :=
  (∀ s : State, s.hostLegal → ∃ t, step s = .next t ∧ ∃ bs, t.out = s.out ++ bs) ∧
  (∀ (s : State) e es, s.host = e :: es → (e = .reset ∨ ∃ bytes, e = .setInput bytes ∧ bytes.length < 2 ^ 64) →
    ∃ t, step s = .next t ∧ t.out = s.out ∧ t.sink = s.sink) ∧
  (∀ (i : Instr) (s : State),
    (i ∈ [.clr, .crcInit, .crcGet, .crc32, .adlInit, .adlGet, .adler32] ∨ (∃ d, i = .crcUpd d) ∨
      (∃ d, i = .adlUpd d) ∨ (∃ w, i = .setW w) ∨ (∃ h, i = .setH h) ∨ ∃ f, i = .setA f) →
    ∃ t, exec i s = .next t ∧ t.out = s.out ∧ t.sink = s.sink ∧ t.status = 0)

/-- 45_encode_driver.md section 3: the bytes a command appends, and its `STATUS`, depend on `WIDTH`, `HEIGHT`, `ALPHA`,
`IN`, the sink's answers and `MAX_CHUNK_LEN` only: not on the accumulators, `RES`, the old `STATUS`, or `OUT`. -/
def Obligations.OutputDependsOnInputsOnly : Prop :=
  ∀ (i : Instr) (s s' : State), s.width = s'.width → s.height = s'.height → s.alpha = s'.alpha →
    s.inBytes = s'.inBytes → s.sink = s'.sink → s.cfg = s'.cfg →
    ∃ t t' bs, exec i s = .next t ∧ exec i s' = .next t' ∧
      t.out = s.out ++ bs ∧ t'.out = s'.out ++ bs ∧ t.status = t'.status

/-! ### Invariant -/

/-- What every step keeps: a canonical input buffer that ends below `IN_LEN`, and a `STATUS` code (10_state.md section
3, 20_memory.md section 1). -/
def Obligations.StepKeepsInvariant : Prop :=
  ∀ s t : State, s.Inv → step s = .next t → t.Inv

/-- The reset state meets the invariant. -/
def Obligations.ResetMeetsInvariant : Prop := State.reset.Inv

/-! ### The host port -/

/-- 00_scope.md section 6 (one command at a time, in the order the host issues them): a step runs the decoded command on
the state without the host action, and a command word that `withFetchWord` places is that action. -/
def Obligations.StepRunsTheDecodedCommand : Prop :=
  (∀ (s : State) w es i, s.host = .command w :: es → decode w = .ok i → step s = exec i { s with host := es }) ∧
  ∀ (s : State) (w : Command) i, decode w = .ok i → step (s.withFetchWord 40 w.toNat) = exec i s

/-- 30_encoding.md R103, 60_exceptions.md R276: a word that matches no row of the opcode map changes `STATUS` alone; the
words with an opcode that is not listed, a listed opcode with a bit outside the row's field, and the all-zero word match
none. -/
def Obligations.IllegalWordChangesStatusOnly : Prop :=
  (∀ (s : State) w es, s.host = .command w :: es → (∀ r ∈ commandTable, w &&& r.mask ≠ r.pattern) →
    step s = .next { s with host := es, status := 6 }) ∧
  (∀ w : Command, opcodeOf w ∉ [0x01, 0x02, 0x03, 0x04, 0x10, 0x11, 0x12, 0x13, 0x20, 0x21, 0x22, 0x23,
      0x30, 0x31, 0x32, 0x33, 0x40, 0x41, 0x42, 0x43, 0x44, 0x45] → ∀ r ∈ commandTable, w &&& r.mask ≠ r.pattern) ∧
  (∀ w : Command, ∀ r ∈ commandTable, opcodeOf w = opcodeOf r.pattern → argumentOf w &&& argumentOf r.mask ≠ 0 →
    ∀ r' ∈ commandTable, w &&& r'.mask ≠ r'.pattern) ∧
  ∀ r ∈ commandTable, (0 : Command) &&& r.mask ≠ r.pattern

/-- 20_memory.md section 1 and 00_scope.md section 6: a new input buffer reads back byte by byte up to its length and not
beyond, and nothing else changes. -/
def Obligations.NewInputBufferReadsBack : Prop :=
  ∀ (s : State) bytes es, s.host = .setInput bytes :: es → bytes.length < 2 ^ 64 →
    ∃ m, step s = .next { s with host := es, input := m, inLen := BitVec.ofNat 64 bytes.length } ∧
      Memory.wf m = true ∧
      ∀ off, ({ s with input := m, inLen := BitVec.ofNat 64 bytes.length } : State).readIn off = bytes[off]?

/-- 70_reset_and_hazards.md section 1: reset between commands, and reset while a command executes: the bytes appended so
far stay, the registers are reset, nothing else is touched. That a command which has fewer than `k` bytes, which a refused
byte ended earlier, or whose word is illegal is over by then and is reset at its end is the model's choice (log 12). -/
def Obligations.ResetDuringCommandKeepsPrefix : Prop :=
  (∀ (s : State) es, s.host = .reset :: es → step s = .next { s with
    host := es, crc := 0xFFFFFFFF, a := 1, b := 0, res := 0, status := 0, width := 0, height := 0, alpha := 0 }) ∧
  (∀ (s : State) w k es, s.host = .resetDuring w k :: es → (∀ i, decode w ≠ .ok i) → step s = .next { s with
    host := es, crc := 0xFFFFFFFF, a := 1, b := 0, res := 0, status := 0, width := 0, height := 0, alpha := 0 }) ∧
  ∀ (s : State) w k es i, s.host = .resetDuring w k :: es → decode w = .ok i →
    let full := if commandError i s = none then commandOutput i s else []
    (Sink.accepts (min k full.length) s.sink = true →
      step s = .next { s with
        host := es, out := s.out ++ full.take k, sink := s.sink.drop (min k full.length)
        crc := 0xFFFFFFFF, a := 1, b := 0, res := 0, status := 0, width := 0, height := 0, alpha := 0 }) ∧
    (∀ m, m < min k full.length → Sink.refusesAfter m s.sink = true → ∃ n, step s = .next { s with
        host := es, out := s.out ++ full.take m, sink := s.sink.drop (m + 1), draws := n
        crc := 0xFFFFFFFF, a := 1, b := 0, res := 0, status := 0, width := 0, height := 0, alpha := 0 })

/-- 60_exceptions.md section 4: between commands the block is idle and keeps everything (log 1). -/
def Obligations.IdleBlockKeepsItsState : Prop := ∀ s : State, s.host = [] → step s = .next s

/-! ### Encoding -/

/-- 30_encoding.md part B: decoding an encoded command gives it back, every operand at every value. -/
def Obligations.DecodeInvertsEncode : Prop :=
  ∀ i : Instr, WellFormed i = true ∧ decode (encodeWord i) = .ok i

/-- 30_encoding.md part B, 92 D21: every command word is unique, so a word that decodes is the encoding of its command,
and the words that decode are those some row of the opcode map selects. -/
def Obligations.CommandWordsAreUnique : Prop :=
  (∀ (w : Command) i, decode w = .ok i → encodeWord i = w) ∧
  ∀ w : Command, (∃ i, decode w = .ok i) ↔ ∃ r ∈ commandTable, w &&& r.mask = r.pattern

/-- 30_encoding.md R101's closing sentence: at most one row matches any word. -/
def Obligations.OpcodeRowsDoNotOverlap : Prop :=
  ∀ w : Command, ∀ r ∈ commandTable, ∀ r' ∈ commandTable,
    w &&& r.mask = r.pattern → w &&& r'.mask = r'.pattern → r = r'

/-- 30_encoding.md R105: five bytes, the opcode first and then the argument most significant byte first. -/
def Obligations.ByteChannelCarriesFiveBytes : Prop :=
  (∀ (op : Byte) (arg : Word), bytesOfWord (commandWord op arg) = op :: be32 arg) ∧
  (∀ (i : Instr) rest, decodeBytes (encodeBytes i ++ rest) = .ok (i, rest)) ∧
  encodeBytes .encode = [0x45, 0x00, 0x00, 0x00, 0x00] ∧
  encodeBytes (.setW 640) = [0x02, 0x00, 0x00, 0x02, 0x80] ∧
  encodeBytes (.chunk 0x49454E44) = [0x40, 0x49, 0x45, 0x4E, 0x44]

/-- 30_encoding.md part B, words written out from R101's columns, one per opcode group and two illegal ones. -/
def Obligations.WrittenOutWordsDecode : Prop :=
  decode 0x0200000280 = .ok (.setW 640) ∧ decode 0x0400000001 = .ok (.setA 1) ∧
  decode 0x1100000049 = .ok (.crcUpd 0x49) ∧ decode 0x21000000FF = .ok (.adlUpd 0xFF) ∧
  decode 0x3349444154 = .ok (.wrU32be 0x49444154) ∧ decode 0x4500000000 = .ok .encode ∧
  decode 0x0000000000 = .error (.unassignedOpcode 0) ∧ decode 0x1100000100 = .error (.unusedArgumentBits 0x11 0x100)

/-- 00_scope.md R7: `be32`, `le16`, and `tag32`, the number whose `be32` is the tag. -/
def Obligations.SerialisationHelpers : Prop :=
  (∀ v : Word, be32 v = [v.extractLsb' 24 8, v.extractLsb' 16 8, v.extractLsb' 8 8, v.extractLsb' 0 8]) ∧
  (∀ v : BitVec 16, le16 v = [v.extractLsb' 0 8, v.extractLsb' 8 8]) ∧
  (∀ b3 b2 b1 b0 : Byte, be32 (tag32 b3 b2 b1 b0) = [b3, b2, b1, b0]) ∧
  tag32 0x49 0x44 0x41 0x54 = 0x49444154 ∧ tag32 0x49 0x48 0x44 0x52 = 0x49484452 ∧
  tag32 0x49 0x45 0x4E 0x44 = 0x49454E44
end

