-- ==== Sys2Proof/Laws/Checksum.lean ====
section
/-! SUPPORT. The two checksums: folding over a concatenation, and the range of the Adler sums. -/

namespace Sys2Proof.Machine

@[simp] theorem crcFold_nil (c : Word) : crcFold c [] = c := rfl

theorem crcFold_cons (c : Word) (d : Byte) (bs : List Byte) : crcFold c (d :: bs) = crcFold (crcStep c d) bs := rfl

theorem crcFold_append (c : Word) (bs cs : List Byte) : crcFold c (bs ++ cs) = crcFold (crcFold c bs) cs :=
  List.foldl_append

@[simp] theorem adlerFold_nil (p : Word × Word) : adlerFold p [] = p := rfl

theorem adlerFold_cons (p : Word × Word) (d : Byte) (bs : List Byte) :
    adlerFold p (d :: bs) = adlerFold (adlerStep p d) bs := rfl

theorem adlerFold_append (p : Word × Word) (bs cs : List Byte) :
    adlerFold p (bs ++ cs) = adlerFold (adlerFold p bs) cs :=
  List.foldl_append

theorem toNat_ofNat_mod_adlerMod (n : Nat) : (BitVec.ofNat 32 (n % adlerMod)).toNat = n % adlerMod := by
  have h : n % adlerMod < 65521 := Nat.mod_lt n (by decide)
  rw [BitVec.toNat_ofNat]
  exact Nat.mod_eq_of_lt (by omega)

/-- The new low sum as a number (41_adler32.md R140). -/
theorem adlerStep_fst_toNat (p : Word × Word) (d : Byte) :
    (adlerStep p d).1.toNat = (p.1.toNat + d.toNat) % adlerMod :=
  toNat_ofNat_mod_adlerMod _

/-- The new high sum as a number: it takes the NEW low sum (41_adler32.md R140). -/
theorem adlerStep_snd_toNat (p : Word × Word) (d : Byte) :
    (adlerStep p d).2.toNat = (p.2.toNat + (adlerStep p d).1.toNat) % adlerMod := by
  rw [adlerStep_fst_toNat]
  exact toNat_ofNat_mod_adlerMod _

@[simp] theorem length_be32 (v : Word) : (be32 v).length = 4 := rfl

@[simp] theorem length_le16 (v : BitVec 16) : (le16 v).length = 2 := rfl

@[simp] theorem length_signature : signature.length = 8 := rfl

@[simp] theorem length_zlibHeader : zlibHeader.length = 2 := rfl

@[simp] theorem length_ihdrPayload (w h : Word) (f : Flag) : (ihdrPayload w h f).length = 13 := rfl

@[simp] theorem length_rowPrefix (w h : Word) (f : Flag) (y : Nat) : (rowPrefix w h f y).length = 5 := rfl

theorem length_chunkBytes (tag : Word) (p : List Byte) : (chunkBytes tag p).length = 12 + p.length := by
  simp [chunkBytes]; omega

end Sys2Proof.Machine
end

