-- ==== Sys2Proof/Laws/Decode.lean ====
section
/-! SUPPORT. The fields of a command word, and the check on an operand. -/

namespace Sys2Proof

/-- The bits of a word made of two fields (30_encoding.md R100). -/
theorem getLsbD_commandWord (op : Byte) (arg : Word) (i : Nat) :
    (commandWord op arg).getLsbD i = if i < 32 then arg.getLsbD i else op.getLsbD (i - 32) := by
  simp only [commandWord, BitVec.getLsbD_or, BitVec.getLsbD_shiftLeft, BitVec.getLsbD_setWidth]
  by_cases h : i < 32
  · have h' : i < 40 := by omega
    simp [h, h']
  · by_cases h' : i < 40
    · have e : i - 32 < 40 := by omega
      simp [h, h', e, BitVec.getLsbD_of_ge arg i (Nat.le_of_not_lt h)]
    · simp [h, h', BitVec.getLsbD_of_ge op (i - 32) (by omega)]

/-- The opcode of a word made of two fields (30_encoding.md R100). -/
theorem opcodeOf_commandWord (op : Byte) (arg : Word) : opcodeOf (commandWord op arg) = op := by
  apply BitVec.eq_of_getLsbD_eq
  intro i hi
  rw [opcodeOf, BitVec.getLsbD_extractLsb', getLsbD_commandWord, if_neg (by omega), Nat.add_sub_cancel_left]
  simp [hi]

/-- The argument of a word made of two fields (30_encoding.md R100). -/
theorem argumentOf_commandWord (op : Byte) (arg : Word) : argumentOf (commandWord op arg) = arg := by
  apply BitVec.eq_of_getLsbD_eq
  intro i hi
  rw [argumentOf, BitVec.getLsbD_extractLsb', getLsbD_commandWord, Nat.zero_add, if_pos hi]
  simp [hi]

/-- A word is its two fields. -/
theorem commandWord_fields (w : Command) : commandWord (opcodeOf w) (argumentOf w) = w := by
  apply BitVec.eq_of_getLsbD_eq
  intro i hi
  rw [getLsbD_commandWord, opcodeOf, argumentOf, BitVec.getLsbD_extractLsb', BitVec.getLsbD_extractLsb', Nat.zero_add]
  by_cases h : i < 32
  · simp [h]
  · have e : 32 + (i - 32) = i := by omega
    have e' : i - 32 < 8 := by omega
    simp [h, e, e']

/-- What the operand check accepts: an argument whose unused bits are 0 (30_encoding.md R103). -/
theorem withOperand_eq_ok {n : Nat} {op : Byte} {arg : Word} {mk : BitVec n → Instr} {i : Instr} :
    withOperand n op arg mk = .ok i ↔ arg >>> n = 0 ∧ i = mk (arg.setWidth n) := by
  rw [withOperand]
  by_cases h : arg >>> n = 0
  · rw [if_pos h]
    exact ⟨fun e => ⟨h, (Except.ok.inj e).symm⟩, fun e => congrArg _ e.2.symm⟩
  · rw [if_neg h]
    exact ⟨fun e => (nomatch e), fun e => absurd e.1 h⟩

/-- Every decoded command is well formed: the operand types hold the check. -/
theorem wellFormed_all (i : Instr) : WellFormed i = true := by
  cases i <;> first | rfl | exact decide_eq_true (BitVec.isLt _)

end Sys2Proof
end

