-- ==== Sys2Proof/Laws/Encoding.lean ====
section
/-! SUPPORT. From the decoder's arm for an opcode to what the words with that opcode are (`EncodedAs`). -/

namespace Sys2Proof.Machine

/-- An argument whose bits from `n` on are 0 is below `2 ^ n`. -/
theorem lt_two_pow_of_shift {arg : Word} {n : Nat} (h : arg >>> n = 0) : arg.toNat < 2 ^ n := by
  have e := congrArg BitVec.toNat h
  rw [BitVec.toNat_ushiftRight, Nat.shiftRight_eq_div_pow] at e
  exact (Nat.div_eq_zero_iff_lt (Nat.two_pow_pos n)).mp (by simpa using e)

theorem shift_eq_zero_of_lt {arg : Word} {n : Nat} (h : arg.toNat < 2 ^ n) : arg >>> n = 0 := by
  apply BitVec.eq_of_toNat_eq
  rw [BitVec.toNat_ushiftRight, Nat.shiftRight_eq_div_pow, Nat.div_eq_of_lt h]
  rfl

/-- An opcode whose arm checks the operand `mk` of `n` bits. -/
theorem encodedAs_of_arm {op : Byte} {n : Nat} {mk : BitVec n → Instr} (hn : n ≤ 32)
    (h : ∀ arg, decode (commandWord op arg) = withOperand n op arg mk) : EncodedAs op n mk where
  left v := by
    have hv : (v.setWidth 32 : Word).toNat = v.toNat := by
      rw [BitVec.toNat_setWidth]
      exact Nat.mod_eq_of_lt (lt_of_lt_of_le v.isLt (Nat.pow_le_pow_right (by decide) hn))
    rw [h, withOperand_eq_ok]
    refine ⟨shift_eq_zero_of_lt (hv ▸ v.isLt), congrArg mk ?_⟩
    apply BitVec.eq_of_toNat_eq
    rw [BitVec.toNat_setWidth, hv, Nat.mod_eq_of_lt v.isLt]
  right arg ha i e := by
    rw [h, withOperand_eq_ok] at e
    exact absurd (lt_two_pow_of_shift e.1) (Nat.not_lt.mpr ha)

end Sys2Proof.Machine
end

