-- ==== Sys2Proof/Laws/State.lean ====
section
/-! SUPPORT. One lemma per field per register update of Sys2Proof/Machine/Ops.lean, so that no later proof unfolds a
record update. -/

namespace Sys2Proof.Machine.State

variable (s : State)

/-! ### `setCrc` -/

@[simp] theorem setCrc_crc (v : Word) : (s.setCrc v).crc = v := rfl
@[simp] theorem setCrc_a (v : Word) : (s.setCrc v).a = s.a := rfl
@[simp] theorem setCrc_b (v : Word) : (s.setCrc v).b = s.b := rfl
@[simp] theorem setCrc_res (v : Word) : (s.setCrc v).res = s.res := rfl
@[simp] theorem setCrc_status (v : Word) : (s.setCrc v).status = s.status := rfl
@[simp] theorem setCrc_width (v : Word) : (s.setCrc v).width = s.width := rfl
@[simp] theorem setCrc_height (v : Word) : (s.setCrc v).height = s.height := rfl
@[simp] theorem setCrc_alpha (v : Word) : (s.setCrc v).alpha = s.alpha := rfl
@[simp] theorem setCrc_input (v : Word) : (s.setCrc v).input = s.input := rfl
@[simp] theorem setCrc_inLen (v : Word) : (s.setCrc v).inLen = s.inLen := rfl
@[simp] theorem setCrc_out (v : Word) : (s.setCrc v).out = s.out := rfl
@[simp] theorem setCrc_sink (v : Word) : (s.setCrc v).sink = s.sink := rfl
@[simp] theorem setCrc_host (v : Word) : (s.setCrc v).host = s.host := rfl
@[simp] theorem setCrc_cfg (v : Word) : (s.setCrc v).cfg = s.cfg := rfl
@[simp] theorem setCrc_draws (v : Word) : (s.setCrc v).draws = s.draws := rfl

/-! ### `setAdler` -/

@[simp] theorem setAdler_crc (p : Word × Word) : (s.setAdler p).crc = s.crc := rfl
@[simp] theorem setAdler_a (p : Word × Word) : (s.setAdler p).a = p.1 := rfl
@[simp] theorem setAdler_b (p : Word × Word) : (s.setAdler p).b = p.2 := rfl
@[simp] theorem setAdler_res (p : Word × Word) : (s.setAdler p).res = s.res := rfl
@[simp] theorem setAdler_status (p : Word × Word) : (s.setAdler p).status = s.status := rfl
@[simp] theorem setAdler_width (p : Word × Word) : (s.setAdler p).width = s.width := rfl
@[simp] theorem setAdler_height (p : Word × Word) : (s.setAdler p).height = s.height := rfl
@[simp] theorem setAdler_alpha (p : Word × Word) : (s.setAdler p).alpha = s.alpha := rfl
@[simp] theorem setAdler_input (p : Word × Word) : (s.setAdler p).input = s.input := rfl
@[simp] theorem setAdler_inLen (p : Word × Word) : (s.setAdler p).inLen = s.inLen := rfl
@[simp] theorem setAdler_out (p : Word × Word) : (s.setAdler p).out = s.out := rfl
@[simp] theorem setAdler_sink (p : Word × Word) : (s.setAdler p).sink = s.sink := rfl
@[simp] theorem setAdler_host (p : Word × Word) : (s.setAdler p).host = s.host := rfl
@[simp] theorem setAdler_cfg (p : Word × Word) : (s.setAdler p).cfg = s.cfg := rfl
@[simp] theorem setAdler_draws (p : Word × Word) : (s.setAdler p).draws = s.draws := rfl

/-! ### `setRes` -/

@[simp] theorem setRes_crc (v : Word) : (s.setRes v).crc = s.crc := rfl
@[simp] theorem setRes_a (v : Word) : (s.setRes v).a = s.a := rfl
@[simp] theorem setRes_b (v : Word) : (s.setRes v).b = s.b := rfl
@[simp] theorem setRes_res (v : Word) : (s.setRes v).res = v := rfl
@[simp] theorem setRes_status (v : Word) : (s.setRes v).status = s.status := rfl
@[simp] theorem setRes_width (v : Word) : (s.setRes v).width = s.width := rfl
@[simp] theorem setRes_height (v : Word) : (s.setRes v).height = s.height := rfl
@[simp] theorem setRes_alpha (v : Word) : (s.setRes v).alpha = s.alpha := rfl
@[simp] theorem setRes_input (v : Word) : (s.setRes v).input = s.input := rfl
@[simp] theorem setRes_inLen (v : Word) : (s.setRes v).inLen = s.inLen := rfl
@[simp] theorem setRes_out (v : Word) : (s.setRes v).out = s.out := rfl
@[simp] theorem setRes_sink (v : Word) : (s.setRes v).sink = s.sink := rfl
@[simp] theorem setRes_host (v : Word) : (s.setRes v).host = s.host := rfl
@[simp] theorem setRes_cfg (v : Word) : (s.setRes v).cfg = s.cfg := rfl
@[simp] theorem setRes_draws (v : Word) : (s.setRes v).draws = s.draws := rfl

/-! ### `setStatus` -/

@[simp] theorem setStatus_crc (v : Byte) : (s.setStatus v).crc = s.crc := rfl
@[simp] theorem setStatus_a (v : Byte) : (s.setStatus v).a = s.a := rfl
@[simp] theorem setStatus_b (v : Byte) : (s.setStatus v).b = s.b := rfl
@[simp] theorem setStatus_res (v : Byte) : (s.setStatus v).res = s.res := rfl
@[simp] theorem setStatus_status (v : Byte) : (s.setStatus v).status = v := rfl
@[simp] theorem setStatus_width (v : Byte) : (s.setStatus v).width = s.width := rfl
@[simp] theorem setStatus_height (v : Byte) : (s.setStatus v).height = s.height := rfl
@[simp] theorem setStatus_alpha (v : Byte) : (s.setStatus v).alpha = s.alpha := rfl
@[simp] theorem setStatus_input (v : Byte) : (s.setStatus v).input = s.input := rfl
@[simp] theorem setStatus_inLen (v : Byte) : (s.setStatus v).inLen = s.inLen := rfl
@[simp] theorem setStatus_out (v : Byte) : (s.setStatus v).out = s.out := rfl
@[simp] theorem setStatus_sink (v : Byte) : (s.setStatus v).sink = s.sink := rfl
@[simp] theorem setStatus_host (v : Byte) : (s.setStatus v).host = s.host := rfl
@[simp] theorem setStatus_cfg (v : Byte) : (s.setStatus v).cfg = s.cfg := rfl
@[simp] theorem setStatus_draws (v : Byte) : (s.setStatus v).draws = s.draws := rfl

/-! ### `setWidth` -/

@[simp] theorem setWidth_crc (v : Word) : (s.setWidth v).crc = s.crc := rfl
@[simp] theorem setWidth_a (v : Word) : (s.setWidth v).a = s.a := rfl
@[simp] theorem setWidth_b (v : Word) : (s.setWidth v).b = s.b := rfl
@[simp] theorem setWidth_res (v : Word) : (s.setWidth v).res = s.res := rfl
@[simp] theorem setWidth_status (v : Word) : (s.setWidth v).status = s.status := rfl
@[simp] theorem setWidth_width (v : Word) : (s.setWidth v).width = v := rfl
@[simp] theorem setWidth_height (v : Word) : (s.setWidth v).height = s.height := rfl
@[simp] theorem setWidth_alpha (v : Word) : (s.setWidth v).alpha = s.alpha := rfl
@[simp] theorem setWidth_input (v : Word) : (s.setWidth v).input = s.input := rfl
@[simp] theorem setWidth_inLen (v : Word) : (s.setWidth v).inLen = s.inLen := rfl
@[simp] theorem setWidth_out (v : Word) : (s.setWidth v).out = s.out := rfl
@[simp] theorem setWidth_sink (v : Word) : (s.setWidth v).sink = s.sink := rfl
@[simp] theorem setWidth_host (v : Word) : (s.setWidth v).host = s.host := rfl
@[simp] theorem setWidth_cfg (v : Word) : (s.setWidth v).cfg = s.cfg := rfl
@[simp] theorem setWidth_draws (v : Word) : (s.setWidth v).draws = s.draws := rfl

/-! ### `setHeight` -/

@[simp] theorem setHeight_crc (v : Word) : (s.setHeight v).crc = s.crc := rfl
@[simp] theorem setHeight_a (v : Word) : (s.setHeight v).a = s.a := rfl
@[simp] theorem setHeight_b (v : Word) : (s.setHeight v).b = s.b := rfl
@[simp] theorem setHeight_res (v : Word) : (s.setHeight v).res = s.res := rfl
@[simp] theorem setHeight_status (v : Word) : (s.setHeight v).status = s.status := rfl
@[simp] theorem setHeight_width (v : Word) : (s.setHeight v).width = s.width := rfl
@[simp] theorem setHeight_height (v : Word) : (s.setHeight v).height = v := rfl
@[simp] theorem setHeight_alpha (v : Word) : (s.setHeight v).alpha = s.alpha := rfl
@[simp] theorem setHeight_input (v : Word) : (s.setHeight v).input = s.input := rfl
@[simp] theorem setHeight_inLen (v : Word) : (s.setHeight v).inLen = s.inLen := rfl
@[simp] theorem setHeight_out (v : Word) : (s.setHeight v).out = s.out := rfl
@[simp] theorem setHeight_sink (v : Word) : (s.setHeight v).sink = s.sink := rfl
@[simp] theorem setHeight_host (v : Word) : (s.setHeight v).host = s.host := rfl
@[simp] theorem setHeight_cfg (v : Word) : (s.setHeight v).cfg = s.cfg := rfl
@[simp] theorem setHeight_draws (v : Word) : (s.setHeight v).draws = s.draws := rfl

/-! ### `setAlpha` -/

@[simp] theorem setAlpha_crc (v : Flag) : (s.setAlpha v).crc = s.crc := rfl
@[simp] theorem setAlpha_a (v : Flag) : (s.setAlpha v).a = s.a := rfl
@[simp] theorem setAlpha_b (v : Flag) : (s.setAlpha v).b = s.b := rfl
@[simp] theorem setAlpha_res (v : Flag) : (s.setAlpha v).res = s.res := rfl
@[simp] theorem setAlpha_status (v : Flag) : (s.setAlpha v).status = s.status := rfl
@[simp] theorem setAlpha_width (v : Flag) : (s.setAlpha v).width = s.width := rfl
@[simp] theorem setAlpha_height (v : Flag) : (s.setAlpha v).height = s.height := rfl
@[simp] theorem setAlpha_alpha (v : Flag) : (s.setAlpha v).alpha = v := rfl
@[simp] theorem setAlpha_input (v : Flag) : (s.setAlpha v).input = s.input := rfl
@[simp] theorem setAlpha_inLen (v : Flag) : (s.setAlpha v).inLen = s.inLen := rfl
@[simp] theorem setAlpha_out (v : Flag) : (s.setAlpha v).out = s.out := rfl
@[simp] theorem setAlpha_sink (v : Flag) : (s.setAlpha v).sink = s.sink := rfl
@[simp] theorem setAlpha_host (v : Flag) : (s.setAlpha v).host = s.host := rfl
@[simp] theorem setAlpha_cfg (v : Flag) : (s.setAlpha v).cfg = s.cfg := rfl
@[simp] theorem setAlpha_draws (v : Flag) : (s.setAlpha v).draws = s.draws := rfl

/-! ### `setHost` -/

@[simp] theorem setHost_crc (v : List HostEvent) : (s.setHost v).crc = s.crc := rfl
@[simp] theorem setHost_a (v : List HostEvent) : (s.setHost v).a = s.a := rfl
@[simp] theorem setHost_b (v : List HostEvent) : (s.setHost v).b = s.b := rfl
@[simp] theorem setHost_res (v : List HostEvent) : (s.setHost v).res = s.res := rfl
@[simp] theorem setHost_status (v : List HostEvent) : (s.setHost v).status = s.status := rfl
@[simp] theorem setHost_width (v : List HostEvent) : (s.setHost v).width = s.width := rfl
@[simp] theorem setHost_height (v : List HostEvent) : (s.setHost v).height = s.height := rfl
@[simp] theorem setHost_alpha (v : List HostEvent) : (s.setHost v).alpha = s.alpha := rfl
@[simp] theorem setHost_input (v : List HostEvent) : (s.setHost v).input = s.input := rfl
@[simp] theorem setHost_inLen (v : List HostEvent) : (s.setHost v).inLen = s.inLen := rfl
@[simp] theorem setHost_out (v : List HostEvent) : (s.setHost v).out = s.out := rfl
@[simp] theorem setHost_sink (v : List HostEvent) : (s.setHost v).sink = s.sink := rfl
@[simp] theorem setHost_host (v : List HostEvent) : (s.setHost v).host = v := rfl
@[simp] theorem setHost_cfg (v : List HostEvent) : (s.setHost v).cfg = s.cfg := rfl
@[simp] theorem setHost_draws (v : List HostEvent) : (s.setHost v).draws = s.draws := rfl

/-! ### `setSink` -/

@[simp] theorem setSink_crc (v : Sink) : (s.setSink v).crc = s.crc := rfl
@[simp] theorem setSink_a (v : Sink) : (s.setSink v).a = s.a := rfl
@[simp] theorem setSink_b (v : Sink) : (s.setSink v).b = s.b := rfl
@[simp] theorem setSink_res (v : Sink) : (s.setSink v).res = s.res := rfl
@[simp] theorem setSink_status (v : Sink) : (s.setSink v).status = s.status := rfl
@[simp] theorem setSink_width (v : Sink) : (s.setSink v).width = s.width := rfl
@[simp] theorem setSink_height (v : Sink) : (s.setSink v).height = s.height := rfl
@[simp] theorem setSink_alpha (v : Sink) : (s.setSink v).alpha = s.alpha := rfl
@[simp] theorem setSink_input (v : Sink) : (s.setSink v).input = s.input := rfl
@[simp] theorem setSink_inLen (v : Sink) : (s.setSink v).inLen = s.inLen := rfl
@[simp] theorem setSink_out (v : Sink) : (s.setSink v).out = s.out := rfl
@[simp] theorem setSink_sink (v : Sink) : (s.setSink v).sink = v := rfl
@[simp] theorem setSink_host (v : Sink) : (s.setSink v).host = s.host := rfl
@[simp] theorem setSink_cfg (v : Sink) : (s.setSink v).cfg = s.cfg := rfl
@[simp] theorem setSink_draws (v : Sink) : (s.setSink v).draws = s.draws := rfl

/-! ### `setOut` -/

@[simp] theorem setOut_crc (v : List Byte) : (s.setOut v).crc = s.crc := rfl
@[simp] theorem setOut_a (v : List Byte) : (s.setOut v).a = s.a := rfl
@[simp] theorem setOut_b (v : List Byte) : (s.setOut v).b = s.b := rfl
@[simp] theorem setOut_res (v : List Byte) : (s.setOut v).res = s.res := rfl
@[simp] theorem setOut_status (v : List Byte) : (s.setOut v).status = s.status := rfl
@[simp] theorem setOut_width (v : List Byte) : (s.setOut v).width = s.width := rfl
@[simp] theorem setOut_height (v : List Byte) : (s.setOut v).height = s.height := rfl
@[simp] theorem setOut_alpha (v : List Byte) : (s.setOut v).alpha = s.alpha := rfl
@[simp] theorem setOut_input (v : List Byte) : (s.setOut v).input = s.input := rfl
@[simp] theorem setOut_inLen (v : List Byte) : (s.setOut v).inLen = s.inLen := rfl
@[simp] theorem setOut_out (v : List Byte) : (s.setOut v).out = v := rfl
@[simp] theorem setOut_sink (v : List Byte) : (s.setOut v).sink = s.sink := rfl
@[simp] theorem setOut_host (v : List Byte) : (s.setOut v).host = s.host := rfl
@[simp] theorem setOut_cfg (v : List Byte) : (s.setOut v).cfg = s.cfg := rfl
@[simp] theorem setOut_draws (v : List Byte) : (s.setOut v).draws = s.draws := rfl

/-! ### `setInput` -/

@[simp] theorem setInput_crc (m : Memory) (n : BitVec Config.inLenBits) : (s.setInput m n).crc = s.crc := rfl
@[simp] theorem setInput_a (m : Memory) (n : BitVec Config.inLenBits) : (s.setInput m n).a = s.a := rfl
@[simp] theorem setInput_b (m : Memory) (n : BitVec Config.inLenBits) : (s.setInput m n).b = s.b := rfl
@[simp] theorem setInput_res (m : Memory) (n : BitVec Config.inLenBits) : (s.setInput m n).res = s.res := rfl
@[simp] theorem setInput_status (m : Memory) (n : BitVec Config.inLenBits) : (s.setInput m n).status = s.status := rfl
@[simp] theorem setInput_width (m : Memory) (n : BitVec Config.inLenBits) : (s.setInput m n).width = s.width := rfl
@[simp] theorem setInput_height (m : Memory) (n : BitVec Config.inLenBits) : (s.setInput m n).height = s.height := rfl
@[simp] theorem setInput_alpha (m : Memory) (n : BitVec Config.inLenBits) : (s.setInput m n).alpha = s.alpha := rfl
@[simp] theorem setInput_input (m : Memory) (n : BitVec Config.inLenBits) : (s.setInput m n).input = m := rfl
@[simp] theorem setInput_inLen (m : Memory) (n : BitVec Config.inLenBits) : (s.setInput m n).inLen = n := rfl
@[simp] theorem setInput_out (m : Memory) (n : BitVec Config.inLenBits) : (s.setInput m n).out = s.out := rfl
@[simp] theorem setInput_sink (m : Memory) (n : BitVec Config.inLenBits) : (s.setInput m n).sink = s.sink := rfl
@[simp] theorem setInput_host (m : Memory) (n : BitVec Config.inLenBits) : (s.setInput m n).host = s.host := rfl
@[simp] theorem setInput_cfg (m : Memory) (n : BitVec Config.inLenBits) : (s.setInput m n).cfg = s.cfg := rfl
@[simp] theorem setInput_draws (m : Memory) (n : BitVec Config.inLenBits) : (s.setInput m n).draws = s.draws := rfl

/-! ### `append` -/

@[simp] theorem append_crc (v : Byte) : (s.append v).crc = s.crc := rfl
@[simp] theorem append_a (v : Byte) : (s.append v).a = s.a := rfl
@[simp] theorem append_b (v : Byte) : (s.append v).b = s.b := rfl
@[simp] theorem append_res (v : Byte) : (s.append v).res = s.res := rfl
@[simp] theorem append_status (v : Byte) : (s.append v).status = s.status := rfl
@[simp] theorem append_width (v : Byte) : (s.append v).width = s.width := rfl
@[simp] theorem append_height (v : Byte) : (s.append v).height = s.height := rfl
@[simp] theorem append_alpha (v : Byte) : (s.append v).alpha = s.alpha := rfl
@[simp] theorem append_input (v : Byte) : (s.append v).input = s.input := rfl
@[simp] theorem append_inLen (v : Byte) : (s.append v).inLen = s.inLen := rfl
@[simp] theorem append_out (v : Byte) : (s.append v).out = s.out ++ [v] := rfl
@[simp] theorem append_sink (v : Byte) : (s.append v).sink = s.sink.rest := rfl
@[simp] theorem append_host (v : Byte) : (s.append v).host = s.host := rfl
@[simp] theorem append_cfg (v : Byte) : (s.append v).cfg = s.cfg := rfl
@[simp] theorem append_draws (v : Byte) : (s.append v).draws = s.draws := rfl

/-! ### `unspecifySums` -/

@[simp] theorem unspecifySums_crc : (s.unspecifySums).crc = Config.freeWord s.draws := rfl
@[simp] theorem unspecifySums_a : (s.unspecifySums).a = Config.freeWord (s.draws + 1) := rfl
@[simp] theorem unspecifySums_b : (s.unspecifySums).b = Config.freeWord (s.draws + 2) := rfl
@[simp] theorem unspecifySums_res : (s.unspecifySums).res = s.res := rfl
@[simp] theorem unspecifySums_status : (s.unspecifySums).status = s.status := rfl
@[simp] theorem unspecifySums_width : (s.unspecifySums).width = s.width := rfl
@[simp] theorem unspecifySums_height : (s.unspecifySums).height = s.height := rfl
@[simp] theorem unspecifySums_alpha : (s.unspecifySums).alpha = s.alpha := rfl
@[simp] theorem unspecifySums_input : (s.unspecifySums).input = s.input := rfl
@[simp] theorem unspecifySums_inLen : (s.unspecifySums).inLen = s.inLen := rfl
@[simp] theorem unspecifySums_out : (s.unspecifySums).out = s.out := rfl
@[simp] theorem unspecifySums_sink : (s.unspecifySums).sink = s.sink := rfl
@[simp] theorem unspecifySums_host : (s.unspecifySums).host = s.host := rfl
@[simp] theorem unspecifySums_cfg : (s.unspecifySums).cfg = s.cfg := rfl
@[simp] theorem unspecifySums_draws : (s.unspecifySums).draws = s.draws + 3 := rfl

/-! ### `resetRegisters` -/

@[simp] theorem resetRegisters_crc : (s.resetRegisters).crc = crcInit := rfl
@[simp] theorem resetRegisters_a : (s.resetRegisters).a = adlerInitA := rfl
@[simp] theorem resetRegisters_b : (s.resetRegisters).b = adlerInitB := rfl
@[simp] theorem resetRegisters_res : (s.resetRegisters).res = 0 := rfl
@[simp] theorem resetRegisters_status : (s.resetRegisters).status = statusOk := rfl
@[simp] theorem resetRegisters_width : (s.resetRegisters).width = 0 := rfl
@[simp] theorem resetRegisters_height : (s.resetRegisters).height = 0 := rfl
@[simp] theorem resetRegisters_alpha : (s.resetRegisters).alpha = 0 := rfl
@[simp] theorem resetRegisters_input : (s.resetRegisters).input = s.input := rfl
@[simp] theorem resetRegisters_inLen : (s.resetRegisters).inLen = s.inLen := rfl
@[simp] theorem resetRegisters_out : (s.resetRegisters).out = s.out := rfl
@[simp] theorem resetRegisters_sink : (s.resetRegisters).sink = s.sink := rfl
@[simp] theorem resetRegisters_host : (s.resetRegisters).host = s.host := rfl
@[simp] theorem resetRegisters_cfg : (s.resetRegisters).cfg = s.cfg := rfl
@[simp] theorem resetRegisters_draws : (s.resetRegisters).draws = s.draws := rfl

/-! ### `foldCrc` -/

@[simp] theorem foldCrc_crc (v : Byte) : (s.foldCrc v).crc = crcStep s.crc v := rfl
@[simp] theorem foldCrc_a (v : Byte) : (s.foldCrc v).a = s.a := rfl
@[simp] theorem foldCrc_b (v : Byte) : (s.foldCrc v).b = s.b := rfl
@[simp] theorem foldCrc_res (v : Byte) : (s.foldCrc v).res = s.res := rfl
@[simp] theorem foldCrc_status (v : Byte) : (s.foldCrc v).status = s.status := rfl
@[simp] theorem foldCrc_width (v : Byte) : (s.foldCrc v).width = s.width := rfl
@[simp] theorem foldCrc_height (v : Byte) : (s.foldCrc v).height = s.height := rfl
@[simp] theorem foldCrc_alpha (v : Byte) : (s.foldCrc v).alpha = s.alpha := rfl
@[simp] theorem foldCrc_input (v : Byte) : (s.foldCrc v).input = s.input := rfl
@[simp] theorem foldCrc_inLen (v : Byte) : (s.foldCrc v).inLen = s.inLen := rfl
@[simp] theorem foldCrc_out (v : Byte) : (s.foldCrc v).out = s.out := rfl
@[simp] theorem foldCrc_sink (v : Byte) : (s.foldCrc v).sink = s.sink := rfl
@[simp] theorem foldCrc_host (v : Byte) : (s.foldCrc v).host = s.host := rfl
@[simp] theorem foldCrc_cfg (v : Byte) : (s.foldCrc v).cfg = s.cfg := rfl
@[simp] theorem foldCrc_draws (v : Byte) : (s.foldCrc v).draws = s.draws := rfl

/-! ### `foldAdler` -/

@[simp] theorem foldAdler_crc (v : Byte) : (s.foldAdler v).crc = s.crc := rfl
@[simp] theorem foldAdler_a (v : Byte) : (s.foldAdler v).a = (adlerStep (s.a, s.b) v).1 := rfl
@[simp] theorem foldAdler_b (v : Byte) : (s.foldAdler v).b = (adlerStep (s.a, s.b) v).2 := rfl
@[simp] theorem foldAdler_res (v : Byte) : (s.foldAdler v).res = s.res := rfl
@[simp] theorem foldAdler_status (v : Byte) : (s.foldAdler v).status = s.status := rfl
@[simp] theorem foldAdler_width (v : Byte) : (s.foldAdler v).width = s.width := rfl
@[simp] theorem foldAdler_height (v : Byte) : (s.foldAdler v).height = s.height := rfl
@[simp] theorem foldAdler_alpha (v : Byte) : (s.foldAdler v).alpha = s.alpha := rfl
@[simp] theorem foldAdler_input (v : Byte) : (s.foldAdler v).input = s.input := rfl
@[simp] theorem foldAdler_inLen (v : Byte) : (s.foldAdler v).inLen = s.inLen := rfl
@[simp] theorem foldAdler_out (v : Byte) : (s.foldAdler v).out = s.out := rfl
@[simp] theorem foldAdler_sink (v : Byte) : (s.foldAdler v).sink = s.sink := rfl
@[simp] theorem foldAdler_host (v : Byte) : (s.foldAdler v).host = s.host := rfl
@[simp] theorem foldAdler_cfg (v : Byte) : (s.foldAdler v).cfg = s.cfg := rfl
@[simp] theorem foldAdler_draws (v : Byte) : (s.foldAdler v).draws = s.draws := rfl

/-! ### `done` -/

@[simp] theorem done_crc : (s.done).crc = s.crc := rfl
@[simp] theorem done_a : (s.done).a = s.a := rfl
@[simp] theorem done_b : (s.done).b = s.b := rfl
@[simp] theorem done_res : (s.done).res = s.res := rfl
@[simp] theorem done_status : (s.done).status = statusOk := rfl
@[simp] theorem done_width : (s.done).width = s.width := rfl
@[simp] theorem done_height : (s.done).height = s.height := rfl
@[simp] theorem done_alpha : (s.done).alpha = s.alpha := rfl
@[simp] theorem done_input : (s.done).input = s.input := rfl
@[simp] theorem done_inLen : (s.done).inLen = s.inLen := rfl
@[simp] theorem done_out : (s.done).out = s.out := rfl
@[simp] theorem done_sink : (s.done).sink = s.sink := rfl
@[simp] theorem done_host : (s.done).host = s.host := rfl
@[simp] theorem done_cfg : (s.done).cfg = s.cfg := rfl
@[simp] theorem done_draws : (s.done).draws = s.draws := rfl

end Sys2Proof.Machine.State
end

