-- ==== Sys2Proof/Laws/Memory.lean ====
section
/-! SUPPORT. The input buffer's memory: a read after a write, the canonical form every write keeps, and `IN` as a byte
sequence. -/

namespace Sys2Proof.Memory

@[simp] theorem read_nil (x : Nat) : Memory.read [] x = Memory.background := rfl

theorem read_cons (c : Host.Cell) (m : Memory) (x : Nat) :
    Memory.read (c :: m) x = if c.1 = x then c.2 else Memory.read m x := rfl

theorem risingFrom_cons (lo : Nat) (c : Host.Cell) (m : Memory) :
    Memory.risingFrom lo (c :: m) = true ↔
      lo ≤ c.1 ∧ c.2 ≠ Memory.background ∧ Memory.risingFrom (c.1 + 1) m = true := by
  simp [Memory.risingFrom, and_assoc]

theorem risingFrom_mono {lo lo' : Nat} (h : lo' ≤ lo) {m : Memory} (hm : Memory.risingFrom lo m = true) :
    Memory.risingFrom lo' m = true := by
  cases m with
  | nil => rfl
  | cons c m =>
    rw [risingFrom_cons] at hm ⊢
    exact ⟨h.trans hm.1, hm.2⟩

/-- An offset below every listed one reads as the background. -/
theorem read_below {lo x : Nat} (hx : x < lo) {m : Memory} (hm : Memory.risingFrom lo m = true) :
    Memory.read m x = Memory.background := by
  induction m generalizing lo with
  | nil => rfl
  | cons c m ih =>
    rw [risingFrom_cons] at hm
    rw [read_cons, if_neg (by omega)]
    exact ih (by omega) hm.2.2

/-- What a read after a write gives, at every offset. -/
theorem read_write {lo : Nat} {m : Memory} (hm : Memory.risingFrom lo m = true) (x y : Nat) (v : Byte) :
    Memory.read (Memory.write m x v) y = if x = y then v else Memory.read m y := by
  induction m generalizing lo with
  | nil =>
    by_cases hv : v = Memory.background <;> by_cases hxy : x = y <;> simp_all [Memory.write, read_cons]
  | cons c m ih =>
    have hr := (risingFrom_cons lo c m).mp hm
    have below : ∀ z, z ≤ c.1 → Memory.read m z = Memory.background :=
      fun z hz => read_below (Nat.lt_succ_of_le hz) hr.2.2
    rcases Nat.lt_trichotomy x c.1 with h | h | h
    · by_cases hv : v = Memory.background <;> by_cases hxy : x = y
      · subst hxy hv
        simp [Memory.write, h, read_cons, below x h.le, Nat.ne_of_gt h]
      · simp [Memory.write, h, hv, hxy]
      · subst hxy
        simp [Memory.write, h, hv, read_cons]
      · simp [Memory.write, h, hv, hxy, read_cons]
    · subst h
      by_cases hv : v = Memory.background <;> by_cases hxy : c.1 = y
      · subst hxy hv
        simp [Memory.write, below]
      · simp [Memory.write, hv, hxy, read_cons]
      · simp [Memory.write, hv, hxy, read_cons]
      · simp [Memory.write, hv, hxy, read_cons]
    · have hw : Memory.write (c :: m) x v = c :: Memory.write m x v := by
        simp [Memory.write, Nat.not_lt.mpr h.le, Nat.ne_of_gt h]
      rw [hw, read_cons, read_cons, ih hr.2.2]
      by_cases hc : c.1 = y
      · simp [hc, Nat.ne_of_gt (hc ▸ h)]
      · simp [hc]

theorem risingFrom_write {lo : Nat} {m : Memory} (hm : Memory.risingFrom lo m = true) {x : Nat} (hx : lo ≤ x)
    (v : Byte) : Memory.risingFrom lo (Memory.write m x v) = true := by
  induction m generalizing lo with
  | nil =>
    by_cases hv : v = Memory.background <;> simp [Memory.write, hv, hx, Memory.risingFrom]
  | cons c m ih =>
    have hr := (risingFrom_cons lo c m).mp hm
    rcases Nat.lt_trichotomy x c.1 with h | h | h
    · by_cases hv : v = Memory.background
      · simpa [Memory.write, h, hv] using hm
      · simp only [Memory.write, h, hv, if_true, if_false]
        exact (risingFrom_cons ..).mpr ⟨hx, hv, (risingFrom_cons ..).mpr ⟨h, hr.2⟩⟩
    · subst h
      by_cases hv : v = Memory.background
      · simpa [Memory.write, hv] using risingFrom_mono (Nat.le_succ_of_le hr.1) hr.2.2
      · simp only [Memory.write, hv, if_false, if_true, lt_self_iff_false]
        exact (risingFrom_cons ..).mpr ⟨hr.1, hv, hr.2.2⟩
    · simp only [Memory.write, Nat.not_lt.mpr h.le, Nat.ne_of_gt h, if_false]
      exact (risingFrom_cons ..).mpr ⟨hr.1, hr.2.1, ih hr.2.2 h⟩

/-- A write keeps the canonical form. -/
theorem wf_write {m : Memory} (hm : Memory.wf m = true) (x : Nat) (v : Byte) :
    Memory.wf (Memory.write m x v) = true :=
  risingFrom_write hm (Nat.zero_le x) v

/-- Loading a buffer keeps the canonical form. -/
theorem wf_writeBytes {m : Memory} (hm : Memory.wf m = true) (x : Nat) (vs : List Byte) :
    Memory.wf (Memory.writeBytes m x vs) = true := by
  induction vs generalizing m x with
  | nil => exact hm
  | cons v vs ih => exact ih (wf_write hm x v) (x + 1)

/-- Every offset of a buffer reads as the byte loaded there, and every other offset as before. -/
theorem read_writeBytes {m : Memory} (hm : Memory.wf m = true) (x : Nat) (vs : List Byte) (y : Nat) :
    Memory.read (Memory.writeBytes m x vs) y = if x ≤ y ∧ y < x + vs.length then vs.getD (y - x) 0
      else Memory.read m y := by
  induction vs generalizing m x with
  | nil => simp [Memory.writeBytes]
  | cons v vs ih =>
    rw [Memory.writeBytes, ih (wf_write hm x v), read_write hm]
    rcases Nat.lt_trichotomy x y with h | h | h
    · obtain ⟨d, rfl⟩ : ∃ d, y = x + 1 + d := ⟨y - (x + 1), by omega⟩
      have e1 : x + 1 + d - (x + 1) = d := by omega
      have e2 : x + 1 + d - x = d + 1 := by omega
      have e3 : (x + 1 ≤ x + 1 + d ∧ x + 1 + d < x + 1 + vs.length) ↔
          (x ≤ x + 1 + d ∧ x + 1 + d < x + (v :: vs).length) := by simp only [List.length_cons]; omega
      simp only [e1, e2, e3, List.getD_cons_succ, Nat.ne_of_lt h, if_false]
    · subst h
      simp
    · have e1 : ¬(x + 1 ≤ y ∧ y < x + 1 + vs.length) := by omega
      have e2 : ¬(x ≤ y ∧ y < x + (v :: vs).length) := by omega
      simp only [e1, e2, if_false, Nat.ne_of_gt h]

theorem below_cons (n : Nat) (c : Host.Cell) (m : Memory) :
    Memory.below n (c :: m) = true ↔ c.1 < n ∧ Memory.below n m = true := by
  simp [Memory.below]

theorem below_write {n : Nat} {m : Memory} (hm : Memory.below n m = true) {x : Nat} (hx : x < n) (v : Byte) :
    Memory.below n (Memory.write m x v) = true := by
  induction m with
  | nil => by_cases hv : v = Memory.background <;> simp [Memory.write, hv, hx, Memory.below]
  | cons c m ih =>
    have hr := (below_cons n c m).mp hm
    simp only [Memory.write]
    split_ifs
    · exact hm
    · exact (below_cons ..).mpr ⟨hx, hm⟩
    · exact hr.2
    · exact (below_cons ..).mpr ⟨hx, hr.2⟩
    · exact (below_cons ..).mpr ⟨hr.1, ih hr.2⟩

theorem below_writeBytes {n : Nat} {m : Memory} (hm : Memory.below n m = true) (x : Nat) (vs : List Byte)
    (hx : x + vs.length ≤ n) : Memory.below n (Memory.writeBytes m x vs) = true := by
  induction vs generalizing m x with
  | nil => exact hm
  | cons v vs ih =>
    simp only [List.length_cons] at hx
    exact ih (below_write hm (by omega) v) (x + 1) (by omega)

end Sys2Proof.Memory

namespace Sys2Proof.Machine

@[simp] theorem State.length_inBytes (s : State) : s.inBytes.length = s.inLen.toNat := by simp [State.inBytes]

/-- Below `IN_LEN` a read of `IN` gives the byte; at or beyond it there is none. -/
theorem State.readIn_eq (s : State) (off : Nat) : s.readIn off = s.inBytes[off]? := by
  by_cases h : off < s.inLen.toNat <;> simp [State.readIn, State.inBytes, h]

end Sys2Proof.Machine
end

