-- ==== Sys2Proof/Laws/Sink.lean ====
section
/-! SUPPORT. The sink's stream of answers: how acceptance splits over a concatenation of byte sequences. -/

namespace Sys2Proof.Machine.Sink

@[simp] theorem accepts_zero (k : Sink) : Sink.accepts 0 k = true := rfl

theorem accepts_succ (n : Nat) (k : Sink) :
    Sink.accepts (n + 1) k = true ↔ k.answer = .accept ∧ Sink.accepts n k.rest = true := by
  simp [Sink.accepts]

@[simp] theorem drop_zero (k : Sink) : k.drop 0 = k := rfl

theorem rest_drop (k : Sink) (n : Nat) : k.rest.drop n = k.drop (n + 1) := by
  cases k with
  | mk script after => cases script <;> simp [Sink.rest, Sink.drop]

theorem drop_one (k : Sink) : k.drop 1 = k.rest := (rest_drop k 0).symm

theorem drop_drop (k : Sink) (m n : Nat) : (k.drop m).drop n = k.drop (m + n) := by
  simp [Sink.drop, List.drop_drop]

theorem drop_rest (k : Sink) (n : Nat) : (k.drop n).rest = k.drop (n + 1) := by
  rw [← drop_one, drop_drop]

/-- A sink accepts `m + n` bytes when it accepts `m`, and then `n` more. -/
theorem accepts_add (m n : Nat) (k : Sink) :
    Sink.accepts (m + n) k = true ↔ Sink.accepts m k = true ∧ Sink.accepts n (k.drop m) = true := by
  induction m generalizing k with
  | zero => simp
  | succ m ih =>
    rw [Nat.succ_add, accepts_succ, accepts_succ, ih, rest_drop, and_assoc]

theorem refusesAfter_iff (n : Nat) (k : Sink) :
    Sink.refusesAfter n k = true ↔ Sink.accepts n k = true ∧ (k.drop n).answer = .refuse := by
  simp [Sink.refusesAfter]

/-- A refusal after more than `m` bytes is an acceptance of `m` and a refusal later on. -/
theorem refusesAfter_add (m n : Nat) (k : Sink) :
    Sink.refusesAfter (m + n) k = true ↔ Sink.accepts m k = true ∧ Sink.refusesAfter n (k.drop m) = true := by
  rw [refusesAfter_iff, refusesAfter_iff, accepts_add, drop_drop, and_assoc]

/-- Of any `n` coming answers, either all are acceptances or a first one is a refusal. -/
theorem accepts_or_refusesAfter (n : Nat) (k : Sink) :
    Sink.accepts n k = true ∨ ∃ m, m < n ∧ Sink.refusesAfter m k = true := by
  induction n generalizing k with
  | zero => exact .inl rfl
  | succ n ih =>
    cases h : k.answer with
    | refuse => exact .inr ⟨0, Nat.succ_pos n, (refusesAfter_iff ..).mpr ⟨rfl, h⟩⟩
    | accept =>
      rcases ih k.rest with hr | ⟨m, hm, hr⟩
      · exact .inl ((accepts_succ ..).mpr ⟨h, hr⟩)
      · refine .inr ⟨1 + m, by omega, (refusesAfter_add ..).mpr ⟨?_, ?_⟩⟩
        · exact (accepts_succ ..).mpr ⟨h, rfl⟩
        · rwa [drop_one]

end Sys2Proof.Machine.Sink
end

