-- ==== Sys2Proof/Laws/Ops.lean ====
section
/-! SUPPORT. One lemma for each shared operation that says everything it can do. The writing operations are all of one
shape, `Writes`: which bytes they append and what they leave in the sums when the sink accepts them all, and a strict
prefix when it does not (20_memory.md R54). -/

namespace Sys2Proof.Machine

/-! ### Progress -/

@[simp] theorem andThen_going (s : State) (k : State → Progress) : (Progress.going s).andThen k = k s := rfl

@[simp] theorem andThen_stopped (e : ErrorKind) (s : State) (k : State → Progress) :
    (Progress.stopped e s).andThen k = .stopped e s := rfl

@[simp] theorem andThen_faulted (f : Fault) (k : State → Progress) :
    (Progress.faulted f).andThen k = .faulted f := rfl

theorem andThen_assoc (p : Progress) (j k : State → Progress) :
    (p.andThen j).andThen k = p.andThen fun s => (j s).andThen k := by
  cases p <;> rfl

@[simp] theorem complete_going (s : State) : complete (.going s) = .next s.done := rfl

@[simp] theorem complete_stopped (e : ErrorKind) (s : State) : complete (.stopped e s) = .next (s.raise e) := rfl

@[simp] theorem complete_faulted (f : Fault) : complete (.faulted f) = .fault f := rfl

@[simp] theorem checked_some (e : ErrorKind) (body : State → Progress) (s : State) :
    checked (some e) body s = .stopped e s := rfl

@[simp] theorem checked_none (body : State → Progress) (s : State) : checked none body s = body s := rfl

/-- `raise` writes the code and, for every kind but a sink failure, nothing else (60_exceptions.md R278). -/
theorem raise_of_ne {e : ErrorKind} (h : e ≠ .sinkWriteFailure) (s : State) : s.raise e = s.setStatus e.code := by
  cases e <;> first | rfl | exact absurd rfl h

theorem raise_sink (s : State) :
    s.raise .sinkWriteFailure = s.unspecifySums.setStatus ErrorKind.sinkWriteFailure.code := rfl

/-! ### Writing -/

/-- `s` after `n` answers of the sink that appended `bs` and left `c`, `p` in the sums. -/
def State.wrote (s : State) (bs : List Byte) (n : Nat) (c : Word) (p : Word × Word) : State :=
  (((s.setOut (s.out ++ bs)).setSink (s.sink.drop n)).setCrc c).setAdler p

/-- `p` is the progress of appending `bs` from `s`, which ends with `c` and `q` in the sums. -/
structure Writes (p : Progress) (s : State) (bs : List Byte) (c : Word) (q : Word × Word) : Prop where
  accepted : Sink.accepts bs.length s.sink = true → p = .going (s.wrote bs bs.length c q)
  refused : ∀ k, k < bs.length → Sink.refusesAfter k s.sink = true →
    ∃ c' q', p = .stopped .sinkWriteFailure (s.wrote (bs.take k) (k + 1) c' q')

theorem wrote_nil (s : State) : s.wrote [] 0 s.crc (s.a, s.b) = s := by
  cases s; simp [State.wrote, State.setOut, State.setSink, State.setCrc, State.setAdler]

theorem wrote_wrote (s : State) (bs cs : List Byte) (m n : Nat) (c d : Word) (p q : Word × Word) :
    (s.wrote bs m c p).wrote cs n d q = s.wrote (bs ++ cs) (m + n) d q := by
  simp [State.wrote, State.setOut, State.setSink, State.setCrc, State.setAdler, Sink.drop_drop, List.append_assoc]

theorem writes_nil (s : State) : Writes (.going s) s [] s.crc (s.a, s.b) where
  accepted _ := by simp [wrote_nil]
  refused k h := absurd h (Nat.not_lt_zero k)

/-- Writing after writing: the two byte sequences follow each other, and a refusal stops in one or the other. -/
theorem Writes.andThen {p : Progress} {s : State} {bs cs : List Byte} {c d : Word} {q r : Word × Word}
    {k : State → Progress} (hp : Writes p s bs c q)
    (hk : Writes (k (s.wrote bs bs.length c q)) (s.wrote bs bs.length c q) cs d r) :
    Writes (p.andThen k) s (bs ++ cs) d r where
  accepted h := by
    rw [List.length_append, Sink.accepts_add] at h
    rw [hp.accepted h.1, andThen_going, hk.accepted h.2, wrote_wrote, List.length_append]
  refused n hn h := by
    rcases Nat.lt_or_ge n bs.length with hlt | hge
    · obtain ⟨c', q', e⟩ := hp.refused n hlt h
      exact ⟨c', q', by rw [e, andThen_stopped, List.take_append_of_le_length hlt.le]⟩
    · obtain ⟨m, rfl⟩ := Nat.exists_eq_add_of_le hge
      rw [List.length_append] at hn
      rw [Sink.refusesAfter_add] at h
      obtain ⟨c', q', e⟩ := hk.refused m (by omega) h.2
      refine ⟨c', q', ?_⟩
      rw [hp.accepted h.1, andThen_going, e, wrote_wrote, List.take_length_add_append, Nat.add_assoc]

/-- A change of the sums alone after writing. -/
theorem Writes.sums {p : Progress} {s : State} {bs : List Byte} {c d : Word} {q r : Word × Word}
    {g : State → State} (hp : Writes p s bs c q)
    (hg : g (s.wrote bs bs.length c q) = s.wrote bs bs.length d r) :
    Writes (p.andThen fun t => .going (g t)) s bs d r where
  accepted h := by rw [hp.accepted h, andThen_going, hg]
  refused k hk h := by
    obtain ⟨c', q', e⟩ := hp.refused k hk h
    exact ⟨c', q', by rw [e, andThen_stopped]⟩

/-- A change of the sums alone before writing. -/
theorem Writes.afterSums {k : State → Progress} {s : State} {bs : List Byte} {c d : Word} {q r : Word × Word}
    (hk : Writes (k (s.wrote [] 0 c q)) (s.wrote [] 0 c q) bs d r) : Writes (k (s.wrote [] 0 c q)) s bs d r where
  accepted h := by rw [hk.accepted h, wrote_wrote, List.nil_append, Nat.zero_add]
  refused n hn h := by
    obtain ⟨c', q', e⟩ := hk.refused n hn h
    exact ⟨c', q', by rw [e, wrote_wrote, List.nil_append, Nat.zero_add]⟩

/-- `Emit(v)` (20_memory.md R54). -/
theorem writes_emit (v : Byte) (s : State) : Writes (emit v s) s [v] s.crc (s.a, s.b) where
  accepted h := by
    have ha : s.sink.answer = .accept := ((Sink.accepts_succ 0 s.sink).mp h).1
    cases s
    simp_all [emit, State.append, State.wrote, State.setOut, State.setSink, State.setCrc, State.setAdler,
      Sink.drop_one]
  refused k hk h := by
    obtain rfl : k = 0 := by simpa using hk
    have ha : s.sink.answer = .refuse := ((Sink.refusesAfter_iff 0 s.sink).mp h).2
    refine ⟨s.crc, (s.a, s.b), ?_⟩
    cases s
    simp_all [emit, State.wrote, State.setOut, State.setSink, State.setCrc, State.setAdler, Sink.drop_one]

/-- `PutC(v)` (42_writer.md R160). -/
theorem writes_putC (v : Byte) (s : State) : Writes (putC v s) s [v] (crcStep s.crc v) (s.a, s.b) :=
  (writes_emit v s).sums rfl

/-- `PutD(v)` (42_writer.md R160). -/
theorem writes_putD (v : Byte) (s : State) :
    Writes (putD v s) s [v] (crcStep s.crc v) (adlerStep (s.a, s.b) v) :=
  (writes_putC v s).sums rfl

@[simp] theorem wrote_crc (s : State) (bs : List Byte) (n : Nat) (c : Word) (p : Word × Word) :
    (s.wrote bs n c p).crc = c := rfl

@[simp] theorem wrote_sums (s : State) (bs : List Byte) (n : Nat) (c : Word) (p : Word × Word) :
    ((s.wrote bs n c p).a, (s.wrote bs n c p).b) = p := rfl

@[simp] theorem wrote_inBytes (s : State) (bs : List Byte) (n : Nat) (c : Word) (p : Word × Word) :
    (s.wrote bs n c p).inBytes = s.inBytes := rfl

@[simp] theorem wrote_inLen (s : State) (bs : List Byte) (n : Nat) (c : Word) (p : Word × Word) :
    (s.wrote bs n c p).inLen = s.inLen := rfl

@[simp] theorem wrote_width (s : State) (bs : List Byte) (n : Nat) (c : Word) (p : Word × Word) :
    (s.wrote bs n c p).width = s.width := rfl

@[simp] theorem wrote_height (s : State) (bs : List Byte) (n : Nat) (c : Word) (p : Word × Word) :
    (s.wrote bs n c p).height = s.height := rfl

@[simp] theorem wrote_alpha (s : State) (bs : List Byte) (n : Nat) (c : Word) (p : Word × Word) :
    (s.wrote bs n c p).alpha = s.alpha := rfl

/-- `EmitSeq(bs)` (00_scope.md R8). -/
theorem writes_sequence_emit (bs : List Byte) (s : State) : Writes (sequence emit bs s) s bs s.crc (s.a, s.b) := by
  induction bs generalizing s with
  | nil => exact writes_nil s
  | cons v bs ih => exact (writes_emit v s).andThen (ih _)

/-- `PutC` of every byte of a sequence. -/
theorem writes_sequence_putC (bs : List Byte) (s : State) :
    Writes (sequence putC bs s) s bs (crcFold s.crc bs) (s.a, s.b) := by
  induction bs generalizing s with
  | nil => exact writes_nil s
  | cons v bs ih => exact (writes_putC v s).andThen (ih _)

/-- `PutD` of every byte of a sequence. -/
theorem writes_sequence_putD (bs : List Byte) (s : State) :
    Writes (sequence putD bs s) s bs (crcFold s.crc bs) (adlerFold (s.a, s.b) bs) := by
  induction bs generalizing s with
  | nil => exact writes_nil s
  | cons v bs ih => exact (writes_putD v s).andThen (ih _)

/-! ### Reading `IN` -/

/-- `IN` keeps its place while an action that leaves it alone runs. -/
def KeepsInput (act : Byte → State → Progress) : Prop :=
  ∀ v s t, act v s = .going t → t.inBytes = s.inBytes

/-- A read loop inside `IN` is the sequence of the bytes it reads (20_memory.md R52). -/
theorem overInput_eq_sequence {act : Byte → State → Progress} (hact : KeepsInput act) (n off : Nat) (s : State)
    (h : off + n ≤ s.inLen.toNat) : overInput act n off s = sequence act ((s.inBytes.drop off).take n) s := by
  induction n generalizing off s with
  | zero => simp [overInput, sequence]
  | succ n ih =>
    have hlt : off < s.inBytes.length := by rw [State.length_inBytes]; omega
    have hd : (s.inBytes.drop off).take (n + 1) = s.inBytes[off] :: (s.inBytes.drop (off + 1)).take n := by
      rw [List.drop_eq_getElem_cons hlt, List.take_succ_cons]
    rw [hd, overInput, State.readIn_eq, List.getElem?_eq_getElem hlt, sequence]
    change (act s.inBytes[off] s).andThen _ = (act s.inBytes[off] s).andThen _
    cases hp : act s.inBytes[off] s with
    | going t =>
      have hb := hact _ _ _ hp
      have hl : t.inLen.toNat = s.inLen.toNat := by
        rw [← State.length_inBytes, hb, State.length_inBytes]
      rw [andThen_going, andThen_going, ih (off + 1) t (by omega), hb]
    | stopped e t => rfl
    | faulted f => rfl

theorem keepsInput_foldCrc : KeepsInput fun v t => .going (t.foldCrc v) := by
  rintro v s t ⟨⟩; rfl

theorem keepsInput_foldAdler : KeepsInput fun v t => .going (t.foldAdler v) := by
  rintro v s t ⟨⟩; rfl

theorem Writes.keepsInput {p : Progress} {s t : State} {bs : List Byte} {c : Word} {q : Word × Word}
    (h : Writes p s bs c q) (ht : p = .going t) : t.inBytes = s.inBytes := by
  rcases Sink.accepts_or_refusesAfter bs.length s.sink with ha | ⟨k, hk, hr⟩
  · rw [h.accepted ha] at ht
    cases ht; rfl
  · obtain ⟨c', q', e⟩ := h.refused k hk hr
    rw [e] at ht
    cases ht

theorem keepsInput_putC : KeepsInput putC := fun v s _ h => (writes_putC v s).keepsInput h

theorem keepsInput_putD : KeepsInput putD := fun v s _ h => (writes_putD v s).keepsInput h

/-- Folding a byte sequence into the CRC register. -/
theorem sequence_foldCrc (bs : List Byte) (s : State) :
    sequence (fun v t => .going (t.foldCrc v)) bs s = .going (s.setCrc (crcFold s.crc bs)) := by
  induction bs generalizing s with
  | nil => rfl
  | cons v bs ih => rw [sequence, andThen_going, ih]; rfl

/-- Folding a byte sequence into the Adler sums. -/
theorem sequence_foldAdler (bs : List Byte) (s : State) :
    sequence (fun v t => .going (t.foldAdler v)) bs s = .going (s.setAdler (adlerFold (s.a, s.b) bs)) := by
  induction bs generalizing s with
  | nil => rfl
  | cons v bs ih => rw [sequence, andThen_going, ih]; rfl

/-! ### Framing -/

/-- `Frame(type, p)` (43_chunk_framer.md R180), for a payload action that appends `p` and folds it into the CRC. -/
theorem writes_frame {tag : Word} {payload : State → Progress} {s : State} {p : List Byte} {q : Word × Word}
    (hp : ∀ t : State, t.inBytes = s.inBytes → t.inLen = s.inLen → t.width = s.width → t.height = s.height →
      t.alpha = s.alpha → (t.a, t.b) = (s.a, s.b) → Writes (payload t) t p (crcFold t.crc p) q) :
    Writes (frame p.length tag payload s) s (chunkBytes tag p) (crcFold crcInit (be32 tag ++ p)) q := by
  have h1 := (writes_sequence_emit (be32 (BitVec.ofNat 32 p.length)) s).sums
    (g := fun t => t.setCrc crcInit) (d := crcInit) (r := (s.a, s.b)) rfl
  have h2 := h1.andThen (writes_sequence_putC (be32 tag) _)
  have h3 := h2.andThen (hp _ rfl rfl rfl rfl rfl rfl)
  have h4 := h3.andThen (k := fun t => sequence emit (be32 (crcValue t.crc)) t) (writes_sequence_emit _ _)
  simpa [frame, chunkBytes, crc32, crcFold_append, List.append_assoc] using h4

end Sys2Proof.Machine
end

