-- ==== Sys2Proof/Laws/Framing.lean ====
section
/-! SUPPORT. The framing commands' bodies as writing operations (`Writes` of Laws/Ops.lean): which bytes each appends and
what it leaves in the sums, and how long its output is. -/

namespace Sys2Proof.Machine

theorem Writes.complete_accepted {p : Progress} {s : State} {bs : List Byte} {c : Word} {q : Word × Word}
    (h : Writes p s bs c q) (ha : Sink.accepts bs.length s.sink = true) :
    complete p = .next { s with out := s.out ++ bs, sink := s.sink.drop bs.length, crc := c, a := q.1, b := q.2, status := 0 } := by
  rw [h.accepted ha]; rfl

theorem Writes.complete_refused {p : Progress} {s : State} {bs : List Byte} {c : Word} {q : Word × Word}
    (h : Writes p s bs c q) {k : Nat} (hk : k < bs.length) (hr : Sink.refusesAfter k s.sink = true) :
    SinkFailed s (bs.take k) (complete p) := by
  obtain ⟨c', q', e⟩ := h.refused k hk hr
  rw [e]
  refine ⟨Config.freeWord s.draws, Config.freeWord (s.draws + 1), Config.freeWord (s.draws + 2), s.draws + 3, ?_⟩
  rw [List.length_take, Nat.min_eq_left hk.le]
  rfl

theorem overInput_putC (s : State) : overInput putC s.inLen.toNat 0 s = sequence putC s.inBytes s := by
  rw [overInput_eq_sequence keepsInput_putC _ _ _ (by omega), List.drop_zero, List.take_of_length_le (by simp)]

theorem writes_chunkBody (tag : Word) (s : State) :
    Writes (chunkBody tag s) s (chunkBytes tag s.inBytes) (crcFold crcInit (be32 tag ++ s.inBytes)) (s.a, s.b) := by
  have h := writes_frame (tag := tag) (payload := fun t => overInput putC t.inLen.toNat 0 t) (s := s) (p := s.inBytes)
    (q := (s.a, s.b)) (fun t ht _ _ _ _ hq => by
      have := writes_sequence_putC t.inBytes t
      rw [overInput_putC]; rw [ht, hq] at this; rwa [ht])
  rwa [State.length_inBytes] at h

theorem writes_ihdrBody (s : State) :
    Writes (ihdrBody s) s (chunkBytes tagIHDR (ihdrPayload s.width s.height s.alpha))
      (crcFold crcInit (be32 tagIHDR ++ ihdrPayload s.width s.height s.alpha)) (s.a, s.b) :=
  writes_frame fun t _ _ _ _ _ hq => hq ▸ writes_sequence_putC _ t

theorem writes_iendBody (s : State) :
    Writes (iendBody s) s (chunkBytes tagIEND []) (crcFold crcInit (be32 tagIEND)) (s.a, s.b) := by
  have h := writes_frame (tag := tagIEND) (payload := Progress.going) (s := s) (p := []) (q := (s.a, s.b))
    (fun t _ _ _ _ _ hq => hq ▸ writes_nil t)
  simpa [iendBody] using h

theorem writes_idatRow (y : Nat) (s : State) (h : (y + 1) * rowBytes s.width s.alpha ≤ s.inLen.toNat) :
    Writes (idatRow y s) s (rowBlock s.width s.height s.alpha s.inBytes y)
      (crcFold s.crc (rowBlock s.width s.height s.alpha s.inBytes y))
      (adlerFold (s.a, s.b) (rowData s.width s.alpha s.inBytes y)) := by
  have h1 := writes_sequence_putC (rowPrefix s.width s.height s.alpha y) s
  have h2 := h1.andThen (writes_putD filterByte _)
  have h3 := h2.andThen (k := fun t => overInput putD (rowBytes t.width t.alpha) (y * rowBytes t.width t.alpha) t)
    (cs := rowPixels s.width s.alpha s.inBytes y)
    (by
      rw [overInput_eq_sequence keepsInput_putD _ _ _ (by simp only [wrote_width, wrote_alpha, wrote_inLen]; rw [Nat.succ_mul] at h; exact h)]
      exact writes_sequence_putD _ _)
  have e : rowBlock s.width s.height s.alpha s.inBytes y = (rowPrefix s.width s.height s.alpha y ++ [filterByte]) ++ rowPixels s.width s.alpha s.inBytes y := by
    simp [rowBlock, rowData]
  rw [e, crcFold_append, crcFold_append, rowData, adlerFold_cons]
  exact h3

theorem writes_idatRows (n y : Nat) (s : State) (h : (y + n) * rowBytes s.width s.alpha ≤ s.inLen.toNat) :
    Writes (idatRows n y s) s ((List.range' y n).flatMap (rowBlock s.width s.height s.alpha s.inBytes))
      (crcFold s.crc ((List.range' y n).flatMap (rowBlock s.width s.height s.alpha s.inBytes)))
      (adlerFold (s.a, s.b) ((List.range' y n).flatMap (rowData s.width s.alpha s.inBytes))) := by
  induction n generalizing y s with
  | zero => exact writes_nil s
  | succ n ih =>
    have hy : (y + 1) * rowBytes s.width s.alpha ≤ s.inLen.toNat :=
      le_trans (Nat.mul_le_mul_right _ (by omega)) h
    have h1 := writes_idatRow y s hy
    rw [List.range'_succ, List.flatMap_cons, List.flatMap_cons, crcFold_append, adlerFold_append]
    refine h1.andThen (k := idatRows n (y+1)) ?_
    refine ih (y+1) _ ?_
    simp only [wrote_width, wrote_alpha, wrote_inLen]
    rwa [show y + 1 + n = y + (n+1) by omega]

theorem length_rowPixels {w h : Word} {f : Flag} {pix : List Byte} (hp : pix.length = expectLen w h f) {y : Nat} (hy : y < h.toNat) :
    (rowPixels w f pix y).length = rowBytes w f := by
  have e : expectLen w h f = h.toNat * rowBytes w f := by simp only [expectLen, rowBytes]; ring
  have h1 : (y+1) * rowBytes w f ≤ h.toNat * rowBytes w f := Nat.mul_le_mul_right _ hy
  rw [Nat.succ_mul] at h1
  simp only [rowPixels, List.length_take, List.length_drop, hp, e]
  omega

theorem length_flatMap_const {α : Type} (l : List Nat) (g : Nat → List α) (n : Nat) (h : ∀ y ∈ l, (g y).length = n) :
    (l.flatMap g).length = l.length * n := by
  induction l with
  | nil => simp
  | cons a l ih =>
    rw [List.flatMap_cons, List.length_append, h a (by simp), ih (fun y hy => h y (by simp [hy])), List.length_cons]
    ring

theorem length_rowBlock {w h : Word} {f : Flag} {pix : List Byte} (hp : pix.length = expectLen w h f) {y : Nat} (hy : y < h.toNat) :
    (rowBlock w h f pix y).length = 5 + rowStride w f := by
  simp [rowBlock, rowData, length_rowPixels hp hy, rowStride]

theorem length_idatPayload {w h : Word} {f : Flag} {pix : List Byte} (hp : pix.length = expectLen w h f) :
    (idatPayload w h f pix).length = idatLen w h f := by
  simp only [idatPayload, List.length_append, length_be32, length_zlibHeader]
  rw [length_flatMap_const _ _ (5 + rowStride w f) (fun y hy => length_rowBlock hp (by simpa using hy)), List.length_range]
  rfl

theorem writes_idatStream (s : State) (h : s.height.toNat * rowBytes s.width s.alpha ≤ s.inLen.toNat) :
    Writes (idatStream s) s (idatPayload s.width s.height s.alpha s.inBytes)
      (crcFold s.crc (idatPayload s.width s.height s.alpha s.inBytes))
      (adlerFold (adlerInitA, adlerInitB) (uncompressed s.width s.height s.alpha s.inBytes)) := by
  have h1 := (writes_sequence_putC zlibHeader s).sums (g := State.initAdler) (d := crcFold s.crc zlibHeader) (r := (adlerInitA, adlerInitB)) rfl
  have h2 := h1.andThen (k := fun t => idatRows t.height.toNat 0 t) (writes_idatRows _ _ _ (by simpa using h))
  have h3 := h2.andThen (k := fun t => sequence putC (be32 (adlerValue (t.a, t.b))) t) (writes_sequence_putC _ _)
  simp only [wrote_height, wrote_width, wrote_alpha, wrote_inBytes, wrote_crc, wrote_sums, ← List.range_eq_range'] at h3
  simpa only [idatStream, idatPayload, uncompressed, crcFold_append, adler32] using h3

theorem image_facts {s : State} (h : imageError s = none) :
    s.width ≠ 0 ∧ s.height ≠ 0 ∧ s.inLen.toNat = expectLen s.width s.height s.alpha ∧ rowStride s.width s.alpha ≤ 65535 ∧ idatLen s.width s.height s.alpha ≤ s.cfg.maxChunkLen.toNat := by
  unfold imageError at h
  split_ifs at h with h1 h2 h3 h4
  exact ⟨fun e => h1 (.inl e), fun e => h1 (.inr e), by omega, by simpa [maxRowStride] using h3, by omega⟩

theorem writes_idatBody (s : State) (h : s.inLen.toNat = expectLen s.width s.height s.alpha) :
    Writes (idatBody s) s (chunkBytes tagIDAT (idatPayload s.width s.height s.alpha s.inBytes))
      (crcFold crcInit (be32 tagIDAT ++ idatPayload s.width s.height s.alpha s.inBytes))
      (adlerFold (adlerInitA, adlerInitB) (uncompressed s.width s.height s.alpha s.inBytes)) := by
  have hl : s.inBytes.length = expectLen s.width s.height s.alpha := by rw [State.length_inBytes, h]
  have := writes_frame (tag := tagIDAT) (payload := idatStream) (s := s) (p := idatPayload s.width s.height s.alpha s.inBytes)
    (q := adlerFold (adlerInitA, adlerInitB) (uncompressed s.width s.height s.alpha s.inBytes)) (fun t e1 e2 e3 e4 e5 _ => by
      have e : expectLen s.width s.height s.alpha = s.height.toNat * rowBytes s.width s.alpha := by simp only [expectLen, rowBytes]; ring
      have := writes_idatStream t (by rw [e2, e3, e4, e5, h, e])
      rwa [e1, e3, e4, e5] at this)
  rwa [length_idatPayload hl] at this

theorem writes_encodeBody (s : State) (h : s.inLen.toNat = expectLen s.width s.height s.alpha) :
    Writes (encodeBody s) s (pngFile s.width s.height s.alpha s.inBytes)
      0x51BD9F7D
      (adlerFold (adlerInitA, adlerInitB) (uncompressed s.width s.height s.alpha s.inBytes)) := by
  have h1 := (writes_sequence_emit signature s).andThen (k := ihdrBody) (writes_ihdrBody _)
  have h2 := h1.andThen (k := idatBody) (writes_idatBody _ h)
  have h3 := h2.andThen (k := iendBody) (writes_iendBody _)
  have e : crcFold crcInit (be32 tagIEND) = 0x51BD9F7D := by decide +kernel
  rw [e] at h3
  exact h3

theorem length_pngFile {w h : Word} {f : Flag} {pix : List Byte} (hp : pix.length = expectLen w h f) :
    (pngFile w h f pix).length = 63 + h.toNat * (5 + rowStride w f) := by
  simp only [pngFile, List.length_append, length_chunkBytes, length_idatPayload hp, length_signature, length_ihdrPayload, List.length_nil, idatLen]
  omega

end Sys2Proof.Machine
end

