-- ==== Sys2Proof/Laws/Exec.lean ====
section
/-! SUPPORT. Everything one command can do, said once: a pre-check error, a write of `commandOutput`, or a change of
registers alone. -/

namespace Sys2Proof.Machine

theorem imageError_ne_sink {s : State} {e : ErrorKind} (h : imageError s = some e) : e ≠ .sinkWriteFailure := by
  rintro rfl
  unfold imageError at h
  split_ifs at h <;> simp_all

theorem commandError_ne_sink {i : Instr} {s : State} {e : ErrorKind} (h : commandError i s = some e) :
    e ≠ .sinkWriteFailure := by
  cases i <;> simp only [commandError, payloadError, dimensionError, reduceCtorEq] at h
  case idat => exact imageError_ne_sink h
  case encode => exact imageError_ne_sink h
  all_goals
    rintro rfl
    split_ifs at h
    simp_all

theorem complete_checked_some {err : Option ErrorKind} {e : ErrorKind} (h : err = some e)
    (hne : e ≠ .sinkWriteFailure) (body : State → Progress) (s : State) :
    complete (checked err body s) = .next (s.setStatus e.code) := by
  rw [h, checked_some, complete_stopped, raise_of_ne hne]

theorem complete_checked_none {err : Option ErrorKind} (h : err = none) (body : State → Progress) (s : State) :
    complete (checked err body s) = complete (body s) := by
  rw [h, checked_none]

/-- A read loop over the whole of `IN` is the sequence of its bytes. -/
theorem overInput_all {act : Byte → State → Progress} (hact : KeepsInput act) (s : State) :
    overInput act s.inLen.toNat 0 s = sequence act s.inBytes s := by
  rw [overInput_eq_sequence hact _ _ _ (by omega), List.drop_zero, List.take_of_length_le (by simp)]

/-- `CRC32` (40_crc32.md R126). -/
theorem execCrc32_eq (s : State) : execCrc32 s = .next ((s.setCrc (crcFold crcInit s.inBytes)).deliverCrc.done) := by
  have h := overInput_all keepsInput_foldCrc (s.setCrc crcInit)
  rw [State.setCrc_inLen] at h
  rw [execCrc32, h, sequence_foldCrc]
  rfl

/-- `ADLER32` (41_adler32.md R145). -/
theorem execAdler32_eq (s : State) : execAdler32 s =
    .next ((s.setAdler (adlerFold (adlerInitA, adlerInitB) s.inBytes)).deliverAdler.done) := by
  have h := overInput_all keepsInput_foldAdler s.initAdler
  have e : overInput (fun v t => .going (t.foldAdler v)) s.inLen.toNat 0 s.initAdler =
    sequence (fun v t => .going (t.foldAdler v)) s.initAdler.inBytes s.initAdler := h
  rw [execAdler32, e, sequence_foldAdler]
  rfl

/-- A register change: nothing outside the block, and no unspecified value, is touched. -/
structure RegistersOnly (s t : State) : Prop where
  input : t.input = s.input
  inLen : t.inLen = s.inLen
  out : t.out = s.out
  sink : t.sink = s.sink
  host : t.host = s.host
  cfg : t.cfg = s.cfg
  draws : t.draws = s.draws

/-- Everything one command can do. -/
theorem exec_cases (i : Instr) (s : State) :
    (∃ e, commandError i s = some e ∧ e ≠ .sinkWriteFailure ∧ exec i s = .next (s.setStatus e.code)) ∨
    (commandError i s = none ∧ ∃ p c q, exec i s = complete p ∧ Writes p s (commandOutput i s) c q) ∨
    (commandError i s = none ∧ commandOutput i s = [] ∧
      ∃ t, exec i s = .next t ∧ RegistersOnly s t ∧ t.status = statusOk) := by
  cases h : commandError i s with
  | some e =>
    have hne := commandError_ne_sink h
    refine .inl ⟨e, rfl, hne, ?_⟩
    cases i <;> first | exact complete_checked_some h hne _ s | cases h
  | none =>
    cases i
    case clr => exact .inr (.inr ⟨rfl, rfl, _, rfl, ⟨rfl, rfl, rfl, rfl, rfl, rfl, rfl⟩, rfl⟩)
    case setW w => exact .inr (.inr ⟨rfl, rfl, _, rfl, ⟨rfl, rfl, rfl, rfl, rfl, rfl, rfl⟩, rfl⟩)
    case setH w => exact .inr (.inr ⟨rfl, rfl, _, rfl, ⟨rfl, rfl, rfl, rfl, rfl, rfl, rfl⟩, rfl⟩)
    case setA f => exact .inr (.inr ⟨rfl, rfl, _, rfl, ⟨rfl, rfl, rfl, rfl, rfl, rfl, rfl⟩, rfl⟩)
    case crcInit => exact .inr (.inr ⟨rfl, rfl, _, rfl, ⟨rfl, rfl, rfl, rfl, rfl, rfl, rfl⟩, rfl⟩)
    case crcUpd d => exact .inr (.inr ⟨rfl, rfl, _, rfl, ⟨rfl, rfl, rfl, rfl, rfl, rfl, rfl⟩, rfl⟩)
    case crcGet => exact .inr (.inr ⟨rfl, rfl, _, rfl, ⟨rfl, rfl, rfl, rfl, rfl, rfl, rfl⟩, rfl⟩)
    case crc32 => exact .inr (.inr ⟨rfl, rfl, _, execCrc32_eq s, ⟨rfl, rfl, rfl, rfl, rfl, rfl, rfl⟩, rfl⟩)
    case adlInit => exact .inr (.inr ⟨rfl, rfl, _, rfl, ⟨rfl, rfl, rfl, rfl, rfl, rfl, rfl⟩, rfl⟩)
    case adlUpd d => exact .inr (.inr ⟨rfl, rfl, _, rfl, ⟨rfl, rfl, rfl, rfl, rfl, rfl, rfl⟩, rfl⟩)
    case adlGet => exact .inr (.inr ⟨rfl, rfl, _, rfl, ⟨rfl, rfl, rfl, rfl, rfl, rfl, rfl⟩, rfl⟩)
    case adler32 => exact .inr (.inr ⟨rfl, rfl, _, execAdler32_eq s, ⟨rfl, rfl, rfl, rfl, rfl, rfl, rfl⟩, rfl⟩)
    case wrB v => exact .inr (.inl ⟨rfl, _, _, _, rfl, writes_putC v s⟩)
    case wrD v => exact .inr (.inl ⟨rfl, _, _, _, rfl, writes_putD v s⟩)
    case wrU16le v => exact .inr (.inl ⟨rfl, _, _, _, rfl, writes_sequence_putC (le16 v) s⟩)
    case wrU32be v => exact .inr (.inl ⟨rfl, _, _, _, rfl, writes_sequence_putC (be32 v) s⟩)
    case chunk tag => exact .inr (.inl ⟨rfl, _, _, _, complete_checked_none h _ s, writes_chunkBody tag s⟩)
    case sig => exact .inr (.inl ⟨rfl, _, _, _, rfl, writes_sequence_emit signature s⟩)
    case ihdr => exact .inr (.inl ⟨rfl, _, _, _, complete_checked_none h _ s, writes_ihdrBody s⟩)
    case idat =>
      exact .inr (.inl ⟨rfl, _, _, _, complete_checked_none h _ s, writes_idatBody s (image_facts h).2.2.1⟩)
    case iend => exact .inr (.inl ⟨rfl, _, _, _, rfl, writes_iendBody s⟩)
    case encode =>
      exact .inr (.inl ⟨rfl, _, _, _, complete_checked_none h _ s, writes_encodeBody s (image_facts h).2.2.1⟩)

end Sys2Proof.Machine
end

