-- ==== Sys2Proof/Laws/PerInstr.lean ====
section
/-! SUPPORT. A statement about every command as syntax: its encoding is selected by its own row of 30_encoding.md R101,
mask and match, whatever its operand. -/

namespace Sys2Proof.Laws

/-- The columns "match" and "mask" of the command's row of 30_encoding.md R101. -/
def rowOf : Instr → TableRow
  | .clr => ⟨"CLR", 0x0100000000, 0xFFFFFFFFFF⟩
  | .setW _ => ⟨"SET.W", 0x0200000000, 0xFF00000000⟩
  | .setH _ => ⟨"SET.H", 0x0300000000, 0xFF00000000⟩
  | .setA _ => ⟨"SET.A", 0x0400000000, 0xFFFFFFFFFE⟩
  | .crcInit => ⟨"CRC.INIT", 0x1000000000, 0xFFFFFFFFFF⟩
  | .crcUpd _ => ⟨"CRC.UPD", 0x1100000000, 0xFFFFFFFF00⟩
  | .crcGet => ⟨"CRC.GET", 0x1200000000, 0xFFFFFFFFFF⟩
  | .crc32 => ⟨"CRC32", 0x1300000000, 0xFFFFFFFFFF⟩
  | .adlInit => ⟨"ADL.INIT", 0x2000000000, 0xFFFFFFFFFF⟩
  | .adlUpd _ => ⟨"ADL.UPD", 0x2100000000, 0xFFFFFFFF00⟩
  | .adlGet => ⟨"ADL.GET", 0x2200000000, 0xFFFFFFFFFF⟩
  | .adler32 => ⟨"ADLER32", 0x2300000000, 0xFFFFFFFFFF⟩
  | .wrB _ => ⟨"WR.B", 0x3000000000, 0xFFFFFFFF00⟩
  | .wrD _ => ⟨"WR.D", 0x3100000000, 0xFFFFFFFF00⟩
  | .wrU16le _ => ⟨"WR.U16LE", 0x3200000000, 0xFFFFFF0000⟩
  | .wrU32be _ => ⟨"WR.U32BE", 0x3300000000, 0xFF00000000⟩
  | .chunk _ => ⟨"CHUNK", 0x4000000000, 0xFF00000000⟩
  | .sig => ⟨"SIG", 0x4100000000, 0xFFFFFFFFFF⟩
  | .ihdr => ⟨"IHDR", 0x4200000000, 0xFFFFFFFFFF⟩
  | .idat => ⟨"IDAT", 0x4300000000, 0xFFFFFFFFFF⟩
  | .iend => ⟨"IEND", 0x4400000000, 0xFFFFFFFFFF⟩
  | .encode => ⟨"ENCODE", 0x4500000000, 0xFFFFFFFFFF⟩

/-- Selecting by mask is a condition on the two fields of the word. -/
theorem selects_commandWord (m : String) (op op' mop : Byte) (arg arg' marg : Word)
    (hop : op &&& mop = op') (harg : arg &&& marg = arg') :
    (TableRow.mk m (commandWord op' arg') (commandWord mop marg)).selects (commandWord op arg) = true := by
  subst hop harg
  rw [TableRow.selects, beq_iff_eq]
  apply BitVec.eq_of_getLsbD_eq
  intro i hi
  simp only [BitVec.getLsbD_and, getLsbD_commandWord]
  split <;> simp

end Sys2Proof.Laws

namespace Sys2Proof.Laws.TableRow

/-- The row of the command selects its encoding, and the row is in the table (30_encoding.md R101). -/
def Statement (i : Instr) : Prop := (rowOf i).selects (encodeWord i) = true ∧ rowOf i ∈ commandTable

/-- The bits of an operand of at most 32 bits lie inside the argument bits the row leaves free. -/
theorem operand_masked {n : Nat} (x : BitVec n) (marg : Word)
    (h : ∀ i, i < n → marg.getLsbD i = false) : x.setWidth 32 &&& marg = 0 := by
  apply BitVec.eq_of_getLsbD_eq
  intro i hi
  by_cases hin : i < n
  · simp [h i hin]
  · simp [BitVec.getLsbD_of_ge x i (Nat.le_of_not_lt hin)]

theorem clr : Statement .clr := ⟨by decide +kernel, by decide +kernel⟩
theorem setW (w : Word) : Statement (.setW w) :=
  ⟨selects_commandWord "SET.W" 0x02 0x02 0xFF w 0 0 (by decide) (by simp), by rw [rowOf]; decide +kernel⟩
theorem setH (h : Word) : Statement (.setH h) :=
  ⟨selects_commandWord "SET.H" 0x03 0x03 0xFF h 0 0 (by decide) (by simp), by rw [rowOf]; decide +kernel⟩
theorem setA (f : Flag) : Statement (.setA f) :=
  ⟨selects_commandWord "SET.A" 0x04 0x04 0xFF _ 0 0xFFFFFFFE (by decide)
    (operand_masked f _ (by decide)), by rw [rowOf]; decide +kernel⟩
theorem crcInit : Statement .crcInit := ⟨by decide +kernel, by decide +kernel⟩
theorem crcUpd (d : Byte) : Statement (.crcUpd d) :=
  ⟨selects_commandWord "CRC.UPD" 0x11 0x11 0xFF _ 0 0xFFFFFF00 (by decide)
    (operand_masked d _ (by decide)), by rw [rowOf]; decide +kernel⟩
theorem crcGet : Statement .crcGet := ⟨by decide +kernel, by decide +kernel⟩
theorem crc32 : Statement .crc32 := ⟨by decide +kernel, by decide +kernel⟩
theorem adlInit : Statement .adlInit := ⟨by decide +kernel, by decide +kernel⟩
theorem adlUpd (d : Byte) : Statement (.adlUpd d) :=
  ⟨selects_commandWord "ADL.UPD" 0x21 0x21 0xFF _ 0 0xFFFFFF00 (by decide)
    (operand_masked d _ (by decide)), by rw [rowOf]; decide +kernel⟩
theorem adlGet : Statement .adlGet := ⟨by decide +kernel, by decide +kernel⟩
theorem adler32 : Statement .adler32 := ⟨by decide +kernel, by decide +kernel⟩
theorem wrB (v : Byte) : Statement (.wrB v) :=
  ⟨selects_commandWord "WR.B" 0x30 0x30 0xFF _ 0 0xFFFFFF00 (by decide)
    (operand_masked v _ (by decide)), by rw [rowOf]; decide +kernel⟩
theorem wrD (v : Byte) : Statement (.wrD v) :=
  ⟨selects_commandWord "WR.D" 0x31 0x31 0xFF _ 0 0xFFFFFF00 (by decide)
    (operand_masked v _ (by decide)), by rw [rowOf]; decide +kernel⟩
theorem wrU16le (v : BitVec 16) : Statement (.wrU16le v) :=
  ⟨selects_commandWord "WR.U16LE" 0x32 0x32 0xFF _ 0 0xFFFF0000 (by decide)
    (operand_masked v _ (by decide)), by rw [rowOf]; decide +kernel⟩
theorem wrU32be (v : Word) : Statement (.wrU32be v) :=
  ⟨selects_commandWord "WR.U32BE" 0x33 0x33 0xFF v 0 0 (by decide) (by simp), by rw [rowOf]; decide +kernel⟩
theorem chunk (tag : Word) : Statement (.chunk tag) :=
  ⟨selects_commandWord "CHUNK" 0x40 0x40 0xFF tag 0 0 (by decide) (by simp), by rw [rowOf]; decide +kernel⟩
theorem sig : Statement .sig := ⟨by decide +kernel, by decide +kernel⟩
theorem ihdr : Statement .ihdr := ⟨by decide +kernel, by decide +kernel⟩
theorem idat : Statement .idat := ⟨by decide +kernel, by decide +kernel⟩
theorem iend : Statement .iend := ⟨by decide +kernel, by decide +kernel⟩
theorem encode : Statement .encode := ⟨by decide +kernel, by decide +kernel⟩

end Sys2Proof.Laws.TableRow
end

