-- ==== Sys2Proof/Laws/Step.lean ====
section
/-! SUPPORT. What a step does with each action of the host. -/

namespace Sys2Proof.Machine

/-- While the host does nothing the block is idle. -/
theorem step_idle {s : State} (h : s.host = []) : step s = .next s := by
  rw [step, stepHost, h]

/-- A step carries out the host's next action on the state without it. -/
theorem step_event {s : State} {e : HostEvent} {es : List HostEvent} (h : s.host = e :: es) :
    step s = runEvent e (s.setHost es) := by
  rw [step, stepHost, h]

/-- A command word is executed, or is illegal. -/
theorem runCommand_ok {w : Command} {i : Instr} (h : decode w = .ok i) (s : State) :
    runCommand w s = exec i s := by
  rw [runCommand, h]

theorem runCommand_illegal {w : Command} {e : DecodeError} (h : decode w = .error e) (s : State) :
    runCommand w s = .next (s.setStatus ErrorKind.illegalCommand.code) := by
  rw [runCommand, h]; rfl

/-- The input buffer after a load: canonical, and ending below `IN_LEN`. -/
theorem loadInput_next {bytes : List Byte} {s t : State} (h : loadInput bytes s = .next t) :
    bytes.length < 2 ^ Config.inLenBits ∧
      t = s.setInput (Memory.writeBytes [] 0 bytes) (BitVec.ofNat Config.inLenBits bytes.length) := by
  unfold loadInput at h
  split at h
  · exact ⟨‹_›, by cases h; rfl⟩
  · cases h

/-- The registers after an abandoned command are the reset values (70_reset_and_hazards.md R300). -/
theorem abandon_resetRegisters (s t : State) (k : Nat) : ∃ u : State, s.abandon t k = u.resetRegisters := by
  rw [State.abandon]
  by_cases h : k ≤ (t.out.drop s.out.length).length
  · exact ⟨_, if_pos h⟩
  · exact ⟨_, if_neg h⟩

/-- A run whose first step answers next goes on from there, on any machine of the host's interface. -/
theorem run_next (M : Host.Core) (n : Nat) (s t : M.State) (h : M.step s = .next t) : M.run (n + 1) s = M.run n t := by
  rw [Host.Core.run, h]

/-- The same of this machine's own `step`. -/
theorem core_run_next (n : Nat) (s t : State) (h : step s = .next t) :
    Sys2Proof.core.run (n + 1) s = Sys2Proof.core.run n t :=
  run_next Sys2Proof.core n s t h

end Sys2Proof.Machine
end

