-- ==== Sys2Proof/Tests/Slice0.lean ====
section
/-! SUPPORT. The model's own tests: decoding of words written out from 30_encoding.md R101, the well-formedness smoke
tests, one or two vectors of 95_test_vectors.md for each command (the expected values are the spec's, derived there from
the rules), and, for each obligation with hypotheses, a witness that they can be met. -/

set_option Elab.async false

namespace Sys2Proof.Tests

open Sys2Proof.Machine

/-! ### Helpers -/

/-- The next state, if there is one. -/
def after (o : Host.Outcome State Fault Refusal) : Option State :=
  match o with
  | .next t => some t
  | .fault _ => none
  | .refused _ => none

/-- `crc`, `a`, `b`, `RES`, `STATUS` after a command. -/
def sums (i : Instr) (s : State) : Option (Word × Word × Word × Word × Byte) :=
  (after (exec i s)).map fun t => (t.crc, t.a, t.b, t.res, t.status)

/-- `OUT` and `STATUS` after a command. -/
def output (i : Instr) (s : State) : Option (List Byte × Byte) := (after (exec i s)).map fun t => (t.out, t.status)

/-- The reset state with an input buffer. -/
def holding (bs : List Byte) : State :=
  { State.reset with input := Memory.writeBytes [] 0 bs, inLen := BitVec.ofNat 64 bs.length }

/-- The reset state with an image. -/
def image (w h : Word) (f : Flag) (bs : List Byte) : State := { holding bs with width := w, height := h, alpha := f }

/-- The image of 95_test_vectors.md V1.1. -/
def redPixel : State := image 1 1 0 [0xFF, 0x00, 0x00]

/-- A sink that accepts `k` bytes and then refuses. -/
def refusing (k : Nat) (s : State) : State :=
  { s with sink := { script := List.replicate k .accept ++ [.refuse], after := .accept } }

/-- The host's next actions. -/
def queued (es : List HostEvent) (s : State) : State := { s with host := es }

/-- The 72 bytes of 95_test_vectors.md V1.1. -/
def redPixelFile : List Byte :=
  [0x89, 0x50, 0x4E, 0x47, 0x0D, 0x0A, 0x1A, 0x0A, 0x00, 0x00, 0x00, 0x0D, 0x49, 0x48, 0x44, 0x52,
    0x00, 0x00, 0x00, 0x01, 0x00, 0x00, 0x00, 0x01, 0x08, 0x02, 0x00, 0x00, 0x00, 0x90, 0x77, 0x53, 0xDE] ++
  [0x00, 0x00, 0x00, 0x0F, 0x49, 0x44, 0x41, 0x54, 0x78, 0x01, 0x01, 0x04, 0x00, 0xFB, 0xFF, 0x00, 0xFF, 0x00, 0x00,
    0x03, 0x01, 0x01, 0x00, 0x8D, 0x1D, 0xE5, 0x82] ++
  [0x00, 0x00, 0x00, 0x00, 0x49, 0x45, 0x4E, 0x44, 0xAE, 0x42, 0x60, 0x82]

/-! ### Decoding (95_test_vectors.md section 9: the words are R101's match column with a sample operand) -/

theorem test_decode_clr : decode 0x0100000000 = .ok .clr := by decide
theorem test_decode_setW : decode 0x0200000280 = .ok (.setW 640) := by decide
theorem test_decode_setH : decode 0x03FFFFFFFF = .ok (.setH 4294967295) := by decide
theorem test_decode_setA : decode 0x0400000001 = .ok (.setA 1) := by decide
theorem test_decode_crcInit : decode 0x1000000000 = .ok .crcInit := by decide
theorem test_decode_crcUpd : decode 0x11000000FF = .ok (.crcUpd 0xFF) := by decide
theorem test_decode_crcGet : decode 0x1200000000 = .ok .crcGet := by decide
theorem test_decode_crc32 : decode 0x1300000000 = .ok .crc32 := by decide
theorem test_decode_adlInit : decode 0x2000000000 = .ok .adlInit := by decide
theorem test_decode_adlUpd : decode 0x2100000000 = .ok (.adlUpd 0) := by decide
theorem test_decode_adlGet : decode 0x2200000000 = .ok .adlGet := by decide
theorem test_decode_adler32 : decode 0x2300000000 = .ok .adler32 := by decide
theorem test_decode_wrB : decode 0x3000000089 = .ok (.wrB 0x89) := by decide
theorem test_decode_wrD : decode 0x31000000FF = .ok (.wrD 0xFF) := by decide
theorem test_decode_wrU16le : decode 0x320000FFFB = .ok (.wrU16le 0xFFFB) := by decide
theorem test_decode_wrU32be : decode 0x3349454E44 = .ok (.wrU32be 0x49454E44) := by decide
theorem test_decode_chunk : decode 0x4049444154 = .ok (.chunk tagIDAT) := by decide
theorem test_decode_sig : decode 0x4100000000 = .ok .sig := by decide
theorem test_decode_ihdr : decode 0x4200000000 = .ok .ihdr := by decide
theorem test_decode_idat : decode 0x4300000000 = .ok .idat := by decide
theorem test_decode_iend : decode 0x4400000000 = .ok .iend := by decide
theorem test_decode_encode : decode 0x4500000000 = .ok .encode := by decide

/-- Section 9's illegal words, each rejected by name. -/
theorem test_decode_illegal :
    decode 0x0000000000 = .error (.unassignedOpcode 0x00) ∧
    decode 0x0100000001 = .error (.unusedArgumentBits 0x01 1) ∧
    decode 0x0400000002 = .error (.unusedArgumentBits 0x04 2) ∧
    decode 0x0500000000 = .error (.unassignedOpcode 0x05) ∧
    decode 0x1000000001 = .error (.unusedArgumentBits 0x10 1) ∧
    decode 0x1100000100 = .error (.unusedArgumentBits 0x11 0x100) ∧
    decode 0x3200010000 = .error (.unusedArgumentBits 0x32 0x10000) ∧
    decode 0x4500000001 = .error (.unusedArgumentBits 0x45 1) ∧
    decode 0x4600000000 = .error (.unassignedOpcode 0x46) ∧
    decode 0xFF00000000 = .error (.unassignedOpcode 0xFF) := by decide

/-- R105's byte forms, and a channel that ends within a command. -/
theorem test_decode_bytes :
    decodeBytes [0x45, 0x00, 0x00, 0x00, 0x00] = .ok (.encode, []) ∧
    decodeBytes [0x02, 0x00, 0x00, 0x02, 0x80, 0x41] = .ok (.setW 640, [0x41]) ∧
    decodeBytes [0x40, 0x49, 0x45, 0x4E, 0x44] = .ok (.chunk tagIEND, []) ∧
    decodeBytes [0x40, 0x49, 0x45, 0x4E] = .error (.truncated 4) := by decide

/-- The host's reading of a table word, and a word of the wrong size. -/
theorem test_decode_table_word :
    decodeTableWord 40 0x0200000280 = some (.setW 640) ∧ decodeTableWord 40 0x0100000001 = none ∧
    decodeTableWord 48 0x450000000000 = none := by decide

/-! ### Well-formedness: an ill-formed word for each check -/

/-- Every command of the table, with its largest operand, is well formed. -/
theorem test_wellFormed :
    WellFormed .clr = true ∧ WellFormed (.setA 1) = true ∧ WellFormed (.crcUpd 0xFF) = true ∧
    WellFormed (.wrU16le 0xFFFF) = true ∧ WellFormed (.chunk 0xFFFFFFFF) = true := by decide

/-- The check "the opcode is one of the 22" refuses these. -/
theorem test_unassigned_opcode_refused :
    wordWellFormed 0x0000000000 = false ∧ wordWellFormed 0x0500000000 = false ∧
    wordWellFormed 0x4600000000 = false := by decide

/-- The check "every unused argument bit is 0" refuses these: commands that use 0, 1, 8 and 16 bits. -/
theorem test_unused_bits_refused :
    wordWellFormed 0x4500000001 = false ∧ wordWellFormed 0x0400000002 = false ∧
    wordWellFormed 0x1100000100 = false ∧ wordWellFormed 0x3200010000 = false := by decide

/-- The same check accepts every value of the used bits. -/
theorem test_used_bits_accepted :
    wordWellFormed 0x0400000001 = true ∧ wordWellFormed 0x11000000FF = true ∧
    wordWellFormed 0x320000FFFF = true ∧ wordWellFormed 0x02FFFFFFFF = true := by decide

/-! ### Configuration (95_test_vectors.md section 10) -/

theorem test_clr_gives_reset_values :
    (after (exec .clr { redPixel with
      crc := 0x51BD9F7D, a := 1261, b := 9868, res := 0xAE426082, status := 4, out := [0xAA] })) =
      some { holding [0xFF, 0x00, 0x00] with out := [0xAA] } := by decide +kernel

theorem test_setW_not_sticky :
    (after (exec (.setW 640) { State.reset with status := 2 })).map (fun t => (t.width, t.height, t.status)) =
      some (640, 0, 0) := by decide

theorem test_setH : (after (exec (.setH 480) State.reset)).map (fun t => (t.width, t.height)) = some (0, 480) := by
  decide

theorem test_setA : (after (exec (.setA 1) State.reset)).map (fun t => t.alpha) = some 1 := by decide

/-! ### CRC-32 (95_test_vectors.md V2.2, V2.4, V2.5) -/

theorem test_crc_step :
    crcStep 0x12345678 0x9A = 0x4E16B702 ∧ crcStep 0xFFFFFFFF 0xFF = 0x00FFFFFF ∧ crcStep 1 1 = 0 ∧
    crcStep 0 0x80 = 0xEDB88320 := by decide

theorem test_crcInit : sums .crcInit { State.reset with crc := 0x12345678 } = some (0xFFFFFFFF, 1, 0, 0, 0) := by decide

theorem test_crcUpd : sums (.crcUpd 0x49) State.reset = some (0x22FDE946, 1, 0, 0, 0) := by decide

theorem test_crcGet_keeps_crc :
    sums .crcGet { State.reset with crc := 0x51BD9F7D } = some (0x51BD9F7D, 1, 0, 0xAE426082, 0) := by decide

theorem test_crc32_check_value :
    sums .crc32 (holding [0x31, 0x32, 0x33, 0x34, 0x35, 0x36, 0x37, 0x38, 0x39]) =
      some (0x340BC6D9, 1, 0, 0xCBF43926, 0) := by decide +kernel

theorem test_crc32_empty : sums .crc32 { State.reset with crc := 7, res := 7 } = some (0xFFFFFFFF, 1, 0, 0, 0) := by decide

/-! ### Adler-32 (95_test_vectors.md V3.1, V3.2, V3.4) -/

theorem test_adler_step_wraps :
    adlerStep (65520, 0) 0x01 = (0, 0) ∧ adlerStep (65520, 65520) 0xFF = (254, 253) ∧
    adlerStep (5611, 64537) 0xFF = (5866, 4882) ∧ adlerStep (65520, 65520) 0x00 = (65520, 65519) := by decide

theorem test_adlInit : sums .adlInit { State.reset with a := 500, b := 900 } = some (0xFFFFFFFF, 1, 0, 0, 0) := by decide

theorem test_adlUpd : sums (.adlUpd 0xFF) State.reset = some (0xFFFFFFFF, 256, 256, 0, 0) := by decide

theorem test_adlGet :
    sums .adlGet { State.reset with a := 256, b := 769 } = some (0xFFFFFFFF, 256, 769, 0x03010100, 0) := by decide

theorem test_adler32_wikipedia :
    sums .adler32 (holding [0x57, 0x69, 0x6B, 0x69, 0x70, 0x65, 0x64, 0x69, 0x61]) =
      some (0xFFFFFFFF, 920, 4582, 0x11E60398, 0) := by decide +kernel

/-! ### The writer (95_test_vectors.md section 4) -/

theorem test_wrB : sums (.wrB 0x49) State.reset = some (0x22FDE946, 1, 0, 0, 0) ∧
    output (.wrB 0x49) State.reset = some ([0x49], 0) := by decide

theorem test_wrD : sums (.wrD 0xFF) State.reset = some (0x00FFFFFF, 256, 256, 0, 0) ∧
    output (.wrD 0xFF) State.reset = some ([0xFF], 0) := by decide

theorem test_wrU16le : sums (.wrU16le 0x1234) State.reset = some (0xF6B56FBF, 1, 0, 0, 0) ∧
    output (.wrU16le 0x1234) State.reset = some ([0x34, 0x12], 0) := by decide +kernel

theorem test_wrU32be : sums (.wrU32be 0x12345678) State.reset = some (0xB5F6F167, 1, 0, 0, 0) ∧
    output (.wrU32be 0x12345678) State.reset = some ([0x12, 0x34, 0x56, 0x78], 0) := by decide +kernel

theorem test_wr_refused :
    output (.wrB 0x41) (refusing 0 State.reset) = some ([], 4) ∧
    output (.wrU16le 0x1234) (refusing 1 State.reset) = some ([0x34], 4) ∧
    output (.wrU32be 0x12345678) (refusing 3 State.reset) = some ([0x12, 0x34, 0x56], 4) := by decide +kernel

/-! ### The framer (95_test_vectors.md section 5) -/

theorem test_sig : output .sig State.reset = some ([0x89, 0x50, 0x4E, 0x47, 0x0D, 0x0A, 0x1A, 0x0A], 0) ∧
    sums .sig State.reset = some (0xFFFFFFFF, 1, 0, 0, 0) ∧
    output .sig (refusing 3 State.reset) = some ([0x89, 0x50, 0x4E], 4) := by decide +kernel

theorem test_iend :
    output .iend State.reset = some ([0x00, 0x00, 0x00, 0x00, 0x49, 0x45, 0x4E, 0x44, 0xAE, 0x42, 0x60, 0x82], 0) ∧
    sums .iend State.reset = some (0x51BD9F7D, 1, 0, 0, 0) := by decide +kernel

theorem test_chunk :
    output (.chunk 0x74455874) (holding [0x54, 0x69, 0x74, 0x6C, 0x65, 0x00, 0x78]) =
      some ([0x00, 0x00, 0x00, 0x07, 0x74, 0x45, 0x58, 0x74, 0x54, 0x69, 0x74, 0x6C, 0x65, 0x00, 0x78,
        0x29, 0x7E, 0x4D, 0x3A], 0) := by decide +kernel

theorem test_chunk_limit :
    output (.chunk tagIDAT) { holding [1, 2, 3] with cfg := ⟨2⟩ } = some ([], 5) ∧
    (output (.chunk tagIDAT) { holding [1, 2] with cfg := ⟨2⟩ }).map (·.2) = some 0 := by decide +kernel

theorem test_ihdr :
    output .ihdr (image 640 480 0 []) =
      some ([0x00, 0x00, 0x00, 0x0D, 0x49, 0x48, 0x44, 0x52, 0x00, 0x00, 0x02, 0x80, 0x00, 0x00, 0x01, 0xE0,
        0x08, 0x02, 0x00, 0x00, 0x00, 0xBA, 0xB3, 0x4B, 0xB3], 0) ∧
    output .ihdr (image 0 1 0 []) = some ([], 1) := by decide +kernel

/-! ### The IDAT builder and the driver (95_test_vectors.md V1.1, V6.1 c, V8.1, V8.2) -/

theorem test_idat_two_rows :
    output .idat (image 1 2 0 [0x00, 0x00, 0x00, 0xFF, 0xFF, 0xFF]) =
      some ([0x00, 0x00, 0x00, 0x18, 0x49, 0x44, 0x41, 0x54, 0x78, 0x01, 0x00, 0x04, 0x00, 0xFB, 0xFF, 0x00, 0x00, 0x00,
        0x00, 0x01, 0x04, 0x00, 0xFB, 0xFF, 0x00, 0xFF, 0xFF, 0xFF, 0x06, 0x02, 0x02, 0xFE, 0xB1, 0x3C, 0xC6, 0x98], 0) ∧
    sums .idat (image 1 2 0 [0x00, 0x00, 0x00, 0xFF, 0xFF, 0xFF]) = some (0x4EC33967, 766, 1538, 0, 0) := by
  decide +kernel

theorem test_idat_errors :
    output .idat (image 1 1 1 [1, 2, 3]) = some ([], 2) ∧
    output .idat { image 2 2 1 (List.replicate 16 7) with cfg := ⟨33⟩ } = some ([], 5) := by decide +kernel

theorem test_encode_red_pixel :
    output .encode redPixel = some (redPixelFile, 0) ∧
    sums .encode redPixel = some (0x51BD9F7D, 256, 769, 0, 0) := by decide +kernel

theorem test_encode_errors :
    output .encode (refusing 40 redPixel) = some (redPixelFile.take 40, 4) ∧
    output .encode (image 0x80000000 2 1 []) = some ([], 2) ∧
    output .encode { image 21845 1 0 [] with inLen := 65535 } = some ([], 3) ∧
    output .encode State.reset = some ([], 1) := by decide +kernel

/-! ### The host port -/

/-- The word placed by `withFetchWord` runs; an illegal word gives 6 and nothing else, even with `WIDTH = 0` (section 9). -/
theorem test_step_runs_the_word :
    after (step (State.reset.withFetchWord 40 0x0200000280)) = some { State.reset with width := 640 } ∧
    after (step (State.reset.withFetchWord 40 0x4500000001)) = some { State.reset with status := 6 } := by decide +kernel

/-- P2 up to `ENCODE`, with the assembler's lines (R106) as the host's actions. -/
theorem test_assembler_lines :
    assembleLine ".in FF 00 00".toList = some [.setInput [0xFF, 0x00, 0x00]] ∧
    assembleLine "SET.W 1   ; a comment".toList = some [.command 0x0200000001] ∧
    assembleLine "CHUNK \"IEND\"".toList = some [.command 0x4049454E44] ∧
    assembleLine "WR.U16LE 0xFFFB".toList = some [.command 0x320000FFFB] ∧
    assembleLine ".in \"\"".toList = some [.setInput []] ∧
    assembleLine "CLR 1".toList = none ∧ assembleLine "SET.A 2".toList = none := by decide +kernel

/-- R107's pseudo-commands. -/
theorem test_pseudo_commands :
    assembleLine "SET.DIM 2, 1, 0".toList = some (issueAll [.setW 2, .setH 1, .setA 0]) ∧
    assembleLine "CRC.OF \"IE\"".toList = some (issueAll [.crcInit, .crcUpd 0x49, .crcUpd 0x45, .crcGet]) ∧
    assembleLine "ADL.OF \"a\"".toList = some (issueAll [.adlInit, .adlUpd 0x61, .adlGet]) ∧
    assembleLine "WR.STR \"a;\"".toList = some (issueAll [.wrB 0x61, .wrB 0x3B]) ∧
    assembleLine "WR.TAG \"IDAT\"".toList = some [.command 0x3349444154] := by decide +kernel

/-! ### Witnesses: the hypotheses of each obligation can be met, each clause at a boundary -/

theorem witness_ResetValuesOfTheRegisters : (queued [.reset] redPixel).host = .reset :: [] := rfl

theorem witness_CrcStepIsBijective : crcStep 0xFFFFFFFF 0x61 = crcStep 0xFFFFFFFF 0x61 := rfl

theorem witness_CrcPseudoCommandDeliversCrc :
    (queued (issueAll [.crcInit, .crcUpd 0x61, .crcGet, .clr]) redPixel).host = issueAll (crcOf [0x61]) ++ issueAll [.clr] ∧
    (queued (issueAll [.crcInit, .crcGet]) redPixel).host = issueAll (crcOf []) ++ [] := ⟨rfl, rfl⟩

theorem witness_AdlerStepUsesNewLowSum : (65520 : Word).toNat ≤ 65520 ∧ (0 : Word).toNat ≤ 65520 := by decide

theorem witness_AdlerPrimitiveCommands :
    ({ State.reset with a := 65520, b := 65520 } : State).a.toNat ≤ 65520 ∧
    ({ State.reset with a := 65520, b := 65520 } : State).b.toNat ≤ 65520 := by decide

theorem witness_AdlerBlockwiseSumsAgree :
    (65520 : Word).toNat ≤ 65520 ∧ ([0xFF] : List Byte) ≠ [] ∧ ([] : List Byte) = [] := by decide

theorem witness_AdlerSumsStayReduced :
    (State.reset.a.toNat ≤ 65520 ∧ State.reset.b.toNat ≤ 65520) ∧
    (after (exec .idat redPixel)).any (fun t => t.status != 4) = true := by decide +kernel

theorem witness_WriteByteCommand :
    State.reset.sink.answer = .accept ∧ (refusing 0 State.reset).sink.answer = .refuse := by decide

theorem witness_WriteDataByteCommand :
    (State.reset.sink.answer = .accept ∧ State.reset.a.toNat ≤ 65520 ∧ State.reset.b.toNat ≤ 65520) ∧
    (refusing 0 State.reset).sink.answer = .refuse := by decide

theorem witness_WriteLittleEndianHalfword :
    Sink.accepts 2 (refusing 2 State.reset).sink = true ∧
    Sink.refusesAfter 0 (refusing 0 State.reset).sink = true ∧
    Sink.refusesAfter 1 (refusing 1 State.reset).sink = true := by decide

theorem witness_WriteBigEndianWord :
    Sink.accepts 4 (refusing 4 State.reset).sink = true ∧
    Sink.refusesAfter 0 (refusing 0 State.reset).sink = true ∧
    Sink.refusesAfter 3 (refusing 3 State.reset).sink = true := by decide

/-- Three bytes with a limit of 2 and of 3. -/
theorem witness_ChunkFramesTheInputBuffer :
    (({ holding [1, 2, 3] with cfg := ⟨2⟩ } : State).inLen.toNat > 2) ∧
    (({ holding [1, 2, 3] with cfg := ⟨3⟩ } : State).inLen.toNat ≤ 3 ∧
      Sink.accepts (12 + 3) (refusing 15 (holding [1, 2, 3])).sink = true ∧
      Sink.refusesAfter 0 (refusing 0 (holding [1, 2, 3])).sink = true ∧
      Sink.refusesAfter 14 (refusing 14 (holding [1, 2, 3])).sink = true) := by decide +kernel

theorem witness_SignatureIsNotFolded :
    Sink.accepts 8 (refusing 8 State.reset).sink = true ∧
    Sink.refusesAfter 0 (refusing 0 State.reset).sink = true ∧
    Sink.refusesAfter 7 (refusing 7 State.reset).sink = true := by decide

theorem witness_HeaderChunkFromRegisters :
    ((image 0 1 0 []).width = 0 ∧ (image 1 0 0 []).height = 0) ∧
    (redPixel.width ≠ 0 ∧ redPixel.height ≠ 0 ∧ Sink.accepts 25 (refusing 25 redPixel).sink = true ∧
      Sink.refusesAfter 0 (refusing 0 redPixel).sink = true ∧
      Sink.refusesAfter 24 (refusing 24 redPixel).sink = true) := by decide +kernel

theorem witness_EndChunkIsConstant :
    Sink.accepts 12 (refusing 12 State.reset).sink = true ∧
    Sink.refusesAfter 0 (refusing 0 State.reset).sink = true ∧
    Sink.refusesAfter 11 (refusing 11 State.reset).sink = true := by decide

/-- Each of the four framing commands completes with `STATUS` 0 somewhere. -/
theorem witness_FramedChunksCarryLengthAndCrc :
    [Instr.chunk 0, .ihdr, .idat, .iend].map (fun i => (after (exec i redPixel)).map (·.status)) =
      [some 0, some 0, some 0, some 0] := by decide +kernel

/-- Every pre-check error of `IDAT`, and an image that passes with a sink that accepts the 27 bytes or refuses one. -/
theorem witness_IdatStreamsThePayloadChunk :
    (imageError State.reset = some .invalidDimensions ∧
      imageError (image 1 1 0 [1]) = some .bufferSizeMismatch ∧
      imageError { image 21845 1 0 [] with inLen := 65535 } = some .rowTooLarge ∧
      imageError { redPixel with cfg := ⟨14⟩ } = some .chunkTooLarge) ∧
    (imageError { redPixel with cfg := ⟨15⟩ } = none ∧ Sink.accepts (12 + 15) (refusing 27 redPixel).sink = true ∧
      Sink.refusesAfter 0 (refusing 0 redPixel).sink = true ∧
      Sink.refusesAfter 26 (refusing 26 redPixel).sink = true) := by decide +kernel

/-- The four clauses at their boundaries: `row_stride` 65536, `idat_len` one above `MAX_CHUNK_LEN`. -/
theorem witness_ImagePreChecksInOrder :
    ((image 0 1 0 []).width = 0 ∧ (image 1 0 0 []).height = 0) ∧
    ((image 1 1 0 [1, 2]).inLen.toNat ≠ 1 * 1 * 3 ∧ (image 1 1 0 [1, 2, 3, 4]).inLen.toNat ≠ 1 * 1 * 3) ∧
    (({ image 21845 1 0 [] with inLen := 65535 } : State).inLen.toNat = 21845 * 1 * 3 ∧ 21845 * 3 + 1 > 65535) ∧
    (redPixel.inLen.toNat = 1 * 1 * 3 ∧ 1 * 3 + 1 ≤ 65535 ∧ 2 + 1 * (5 + (1 * 3 + 1)) + 4 > (14 : Word).toNat) := by
  decide +kernel

theorem witness_ExpectedLengthNeverWraps :
    (image 0x80000000 0x80000000 1 []).width ≠ 0 ∧ (image 0x80000000 0x80000000 1 []).height ≠ 0 ∧
    2 ^ 64 ≤ (0x80000000 : Word).toNat * (0x80000000 : Word).toNat * (if (1 : Flag) = 1 then 4 else 3) := by decide

theorem witness_IdatLengthIsExact :
    ([0xFF, 0x00, 0x00] : List Byte).length = (1 : Word).toNat * (1 : Word).toNat * channels 0 ∧
    ([] : List Byte).length = (0 : Word).toNat * (5 : Word).toNat * channels 1 := by decide

/-- The largest row, first and last of two rows. -/
theorem witness_StoredBlockHeaderAndLengths :
    rowStride 21844 0 ≤ 65535 ∧ rowStride 16383 1 ≤ 65535 ∧ 0 < (2 : Word).toNat ∧ 1 < (2 : Word).toNat := by decide

theorem witness_EncodeWritesThePngFile :
    (imageError State.reset = some .invalidDimensions) ∧
    (imageError redPixel = none ∧ Sink.accepts (63 + 1 * (5 + 4)) (refusing 72 redPixel).sink = true ∧
      Sink.refusesAfter 0 (refusing 0 redPixel).sink = true ∧
      Sink.refusesAfter 71 (refusing 71 redPixel).sink = true) := by decide +kernel

theorem witness_EncodedFileLayout :
    redPixel.out = [] ∧ imageError redPixel = none ∧
    Sink.accepts (63 + redPixel.height.toNat * (5 + rowStride redPixel.width redPixel.alpha)) redPixel.sink = true := by
  decide +kernel

theorem witness_FourCommandsEqualEncode :
    (queued (issueAll [.sig, .ihdr, .idat, .iend]) redPixel).host = issueAll [.sig, .ihdr, .idat, .iend] ++ [] ∧
    (imageError redPixel = none ∧
      Sink.accepts (63 + redPixel.height.toNat * (5 + rowStride redPixel.width redPixel.alpha)) redPixel.sink = true) ∧
    (imageError (image 1 1 0 [0, 0]) = some .bufferSizeMismatch ∧ (image 1 1 0 [0, 0]).width ≠ 0 ∧
      (image 1 1 0 [0, 0]).height ≠ 0 ∧ Sink.accepts 33 (refusing 33 (image 1 1 0 [0, 0])).sink = true) := by
  decide +kernel

/-- The clause of a zero dimension. -/
theorem witness_FourCommandsEqualEncode_zero :
    (queued (issueAll [.sig, .ihdr, .idat, .iend]) (image 0 1 0 [])).host = issueAll [.sig, .ihdr, .idat, .iend] ++ [] ∧
    (image 0 1 0 []).width = 0 ∧ (image 1 0 0 []).height = 0 ∧
    Sink.accepts 8 (refusing 8 (image 0 1 0 [])).sink = true := by decide +kernel

theorem witness_EncodeTwiceAppendsTwice :
    (queued (issueAll [.encode, .encode]) redPixel).host = issueAll [.encode, .encode] ++ [] ∧
    imageError redPixel = none ∧
    Sink.accepts (2 * (63 + redPixel.height.toNat * (5 + rowStride redPixel.width redPixel.alpha)))
      (refusing 144 redPixel).sink = true := by decide +kernel

theorem witness_OutputIsWholeOrStrictPrefix :
    commandError .ihdr State.reset = some .invalidDimensions ∧
    (commandError .encode redPixel = none ∧
      Sink.accepts (commandOutput .encode redPixel).length (refusing 72 redPixel).sink = true ∧
      0 < (commandOutput .encode redPixel).length ∧ Sink.refusesAfter 0 (refusing 0 redPixel).sink = true ∧
      71 < (commandOutput .encode redPixel).length ∧ Sink.refusesAfter 71 (refusing 71 redPixel).sink = true) := by
  decide +kernel

/-- An illegal word; a command that writes `crc` and one that writes `a` and `b` without reading them, each completing. -/
theorem witness_OutputIsWholeOrStrictPrefix_registers :
    (queued [.command 0x4600000000] redPixel).host = .command 0x4600000000 :: [] ∧
    (∀ i, decode 0x4600000000 ≠ .ok i) ∧
    (commandError (.chunk 0) redPixel = none ∧
      Sink.accepts (commandOutput (.chunk 0) redPixel).length (refusing 15 redPixel).sink = true) ∧
    (commandError .idat redPixel = none ∧
      Sink.accepts (commandOutput .idat redPixel).length (refusing 27 redPixel).sink = true) := by
  refine ⟨rfl, fun i h => ?_, ?_, ?_⟩
  · exact absurd (show decode 0x4600000000 = .error (.unassignedOpcode 0x46) by decide) (by rw [h]; exact nofun)
  · decide +kernel
  · decide +kernel

theorem witness_hostLegal : State.reset.hostLegal ∧ (queued [.setInput [1, 2]] State.reset).hostLegal := by
  constructor
  · intro _ _ h
    cases h
  · intro _ _ h
    cases h
    decide

/-- An illegal word, a pre-check error, an accepting and a refusing sink. -/
theorem witness_StatusIsOverwrittenByEveryCommand :
    (queued [.command 0x0000000000] redPixel).host = .command 0x0000000000 :: [] ∧
    (∀ i, decode 0x0000000000 ≠ .ok i) ∧
    commandError (.chunk 0) { holding [1, 2, 3] with cfg := ⟨2⟩ } = some .chunkTooLarge ∧
    (commandError .sig redPixel = none ∧
      Sink.accepts (commandOutput .sig redPixel).length (refusing 8 redPixel).sink = true ∧
      Sink.accepts (commandOutput .sig redPixel).length (refusing 7 redPixel).sink = false) := by
  refine ⟨rfl, fun i h => ?_, ?_⟩
  · exact absurd (show decode 0x0000000000 = .error (.unassignedOpcode 0) by decide) (by rw [h]; exact nofun)
  · decide +kernel

theorem witness_ResultRegisterWriters :
    [Instr.crcGet, .crc32, .adlGet, .adler32, .clr, .sig].map (fun i => (after (exec i redPixel)).isSome) =
      [true, true, true, true, true, true] := by decide +kernel

theorem witness_RegisterFrameOfEveryCommand :
    [Instr.adlGet, .sig, .adlUpd 1, .wrB 1, .iend, .setW 1].map (fun i => (after (exec i redPixel)).map (·.status)) =
      [some 0, some 0, some 0, some 0, some 0, some 0] := by decide +kernel

theorem witness_OutputOnlyGrows :
    (queued [.reset] redPixel).host = .reset :: [] ∧
    ((queued [.setInput [1]] redPixel).host = .setInput [1] :: [] ∧ ([1] : List Byte).length < 2 ^ 64) := by
  refine ⟨rfl, rfl, by decide⟩

/-- Two states that differ in everything the statement says does not matter. -/
theorem witness_OutputDependsOnInputsOnly :
    let s := redPixel
    let s' : State := { redPixel with crc := 5, a := 7, b := 9, res := 3, status := 4, out := [0xAA] }
    s.width = s'.width ∧ s.height = s'.height ∧ s.alpha = s'.alpha ∧ s.inBytes = s'.inBytes ∧ s.sink = s'.sink ∧
      s.cfg = s'.cfg := ⟨rfl, rfl, rfl, rfl, rfl, rfl⟩

theorem witness_StepKeepsInvariant :
    (queued [.command 0x0200000280] redPixel).Inv ∧
    step (queued [.command 0x0200000280] redPixel) = .next { redPixel with width := 640 } := by
  refine ⟨⟨?_, ?_, ?_⟩, rfl⟩ <;> decide +kernel

theorem witness_StepRunsTheDecodedCommand :
    (queued [.command 0x02FFFFFFFF] redPixel).host = .command 0x02FFFFFFFF :: [] ∧
    decode 0x02FFFFFFFF = .ok (.setW 0xFFFFFFFF) := ⟨rfl, by decide⟩

/-- Three words that match no row: an unassigned opcode on either side of a group, and one unused bit. -/
theorem witness_IllegalWordChangesStatusOnly :
    (queued [.command 0x4600000000] redPixel).host = .command 0x4600000000 :: [] ∧
    (∀ r ∈ commandTable, (0x4600000000 : Command) &&& r.mask ≠ r.pattern) ∧
    (∀ r ∈ commandTable, (0x0000000000 : Command) &&& r.mask ≠ r.pattern) ∧
    (∀ r ∈ commandTable, (0x0400000002 : Command) &&& r.mask ≠ r.pattern) ∧
    opcodeOf 0x4600000000 = 0x46 ∧
    (opcodeOf 0x0400000002 = opcodeOf 0x0400000000 ∧ argumentOf 0x0400000002 &&& argumentOf 0xFFFFFFFFFE ≠ 0) := by
  refine ⟨rfl, ?_, ?_, ?_, ?_⟩ <;> decide +kernel

theorem witness_NewInputBufferReadsBack :
    (queued [.setInput [0, 1, 0]] redPixel).host = .setInput [0, 1, 0] :: [] ∧
    ([0, 1, 0] : List Byte).length < 2 ^ 64 ∧
    (queued [.setInput []] redPixel).host = .setInput [] :: [] := ⟨rfl, by decide, rfl⟩

/-- Before the first byte, at the last byte, beyond the end, and in a command that a pre-check stops. -/
theorem witness_ResetDuringCommandKeepsPrefix :
    (queued [.reset] redPixel).host = .reset :: [] ∧
    (queued [.resetDuring 0x4100000000 8] redPixel).host = .resetDuring 0x4100000000 8 :: [] ∧
    decode 0x4100000000 = .ok .sig ∧ commandError .sig redPixel = none ∧
    Sink.accepts (min 0 (commandOutput .sig redPixel).length) (refusing 0 redPixel).sink = true ∧
    Sink.accepts (min 8 (commandOutput .sig redPixel).length) (refusing 8 redPixel).sink = true ∧
    Sink.accepts (min 99 (commandOutput .sig redPixel).length) (refusing 8 redPixel).sink = true ∧
    (7 < min 8 (commandOutput .sig redPixel).length ∧ Sink.refusesAfter 7 (refusing 7 redPixel).sink = true) ∧
    decode 0x4500000000 = .ok .encode ∧ commandError .encode State.reset = some .invalidDimensions := by
  refine ⟨rfl, rfl, ?_⟩
  decide +kernel

/-- The clause of an illegal word. -/
theorem witness_ResetDuringCommandKeepsPrefix_illegal :
    (queued [.resetDuring 0x0000000000 3] redPixel).host = .resetDuring 0x0000000000 3 :: [] ∧
    ∀ i, decode 0x0000000000 ≠ .ok i := by
  refine ⟨rfl, fun i h => ?_⟩
  exact absurd (show decode 0x0000000000 = .error (.unassignedOpcode 0) by decide) (by rw [h]; exact nofun)

theorem witness_IdleBlockKeepsItsState : State.reset.host = [] := rfl

theorem witness_CommandWordsAreUnique :
    decode 0x3200000000 = .ok (.wrU16le 0) ∧ decode 0x320000FFFF = .ok (.wrU16le 0xFFFF) := by decide

theorem witness_OpcodeRowsDoNotOverlap :
    (⟨"SET.A", 0x0400000000, 0xFFFFFFFFFE⟩ : TableRow) ∈ commandTable ∧
    (0x0400000001 : Command) &&& 0xFFFFFFFFFE = 0x0400000000 := by decide

end Sys2Proof.Tests
end

section
/-! PROOFS. The serialisation helpers (00_scope.md R7): a word of four bytes as a number, and its bytes read back. -/

namespace Sys2Proof.Machine

/-- A byte moved up to a place inside the word: no bit of it is lost. -/
theorem toNat_setWidth_shiftLeft (b : Byte) {k : Nat} (hk : k ≤ 24) :
    ((b.setWidth 32 : Word) <<< k).toNat = 2 ^ k * b.toNat := by
  have hb : b.toNat * 2 ^ k < 2 ^ 32 :=
    Nat.mul_lt_mul_of_lt_of_le (c := 2 ^ 8) (d := 2 ^ 24) b.isLt (Nat.pow_le_pow_right (by decide) hk) (by decide)
  rw [BitVec.toNat_shiftLeft, BitVec.toNat_setWidth_of_le (by decide), Nat.shiftLeft_eq, Nat.mod_eq_of_lt hb,
    Nat.mul_comm]

/-- The bytes do not overlap, so the OR that builds the word is the sum of the bytes at their places. -/
theorem toNat_bigEndianWord (b3 b2 b1 b0 : Byte) :
    (bigEndianWord b3 b2 b1 b0).toNat =
      2 ^ 24 * b3.toNat + (2 ^ 16 * b2.toNat + (2 ^ 8 * b1.toNat + b0.toNat)) := by
  have h2 := b2.isLt
  have h1 := b1.isLt
  have h0 := b0.isLt
  rw [Nat.two_pow_add_eq_or_of_lt (by omega), Nat.two_pow_add_eq_or_of_lt (by omega),
    Nat.two_pow_add_eq_or_of_lt h0, bigEndianWord]
  simp only [BitVec.toNat_or, toNat_setWidth_shiftLeft, Nat.reduceLeDiff, BitVec.toNat_setWidth_of_le, Nat.or_assoc]

/-- The byte of a word at bit `k`, found by division. -/
theorem extractLsb'_eq_of_div_mod {v : Word} {k : Nat} {b : Byte} (h : v.toNat / 2 ^ k % 2 ^ 8 = b.toNat) :
    v.extractLsb' k 8 = b := by
  apply BitVec.eq_of_toNat_eq
  rw [BitVec.extractLsb'_toNat, Nat.shiftRight_eq_div_pow, h]

@[simp] theorem be32_bigEndianWord (b3 b2 b1 b0 : Byte) : be32 (bigEndianWord b3 b2 b1 b0) = [b3, b2, b1, b0] := by
  have hv := toNat_bigEndianWord b3 b2 b1 b0
  have h3 := b3.isLt
  have h2 := b2.isLt
  have h1 := b1.isLt
  have h0 := b0.isLt
  rw [be32, extractLsb'_eq_of_div_mod (k := 24) (b := b3) (by omega),
    extractLsb'_eq_of_div_mod (k := 16) (b := b2) (by omega),
    extractLsb'_eq_of_div_mod (k := 8) (b := b1) (by omega),
    extractLsb'_eq_of_div_mod (k := 0) (b := b0) (by omega)]

@[simp] theorem be32_tag32 (b3 b2 b1 b0 : Byte) : be32 (tag32 b3 b2 b1 b0) = [b3, b2, b1, b0] :=
  be32_bigEndianWord b3 b2 b1 b0

/-- Settles O54: `be32` and `le16` are the listed bytes by definition, `be32_tag32` reads the four bytes of a tag back,
and the three tags are computed. -/
theorem serialisationHelpers : Obligations.SerialisationHelpers :=
  ⟨fun _ => rfl, fun _ => rfl, be32_tag32, by decide, by decide, by decide⟩

end Sys2Proof.Machine
end

section
/-! PROOFS. What every command does to `STATUS` and to `RES` (10_state.md R24, R25), and the registers at reset. -/

namespace Sys2Proof.Machine

/-! ### The end of a writing command -/

/-- A refusal among the next `n` answers is no acceptance of `n` bytes. -/
theorem Sink.accepts_eq_false_of_refusesAfter {k n : Nat} {q : Sink} (hk : k < n) (h : Sink.refusesAfter k q = true) :
    Sink.accepts n q = false := by
  obtain ⟨m, rfl⟩ := Nat.exists_eq_add_of_lt hk
  have hr := ((Sink.refusesAfter_iff k q).mp h).2
  rw [← Bool.not_eq_true, Nat.add_assoc, Sink.accepts_add, Sink.accepts_succ, hr]
  exact fun ⟨_, ha, _⟩ => nomatch ha

/-- The two ends of a command that writes: `done`, or a sink failure, which overwrites whatever the sums held. -/
theorem Writes.complete_cases {p : Progress} {s : State} {bs : List Byte} {c : Word} {q : Word × Word}
    (h : Writes p s bs c q) :
    (Sink.accepts bs.length s.sink = true ∧ complete p = .next (s.wrote bs bs.length c q).done) ∨
    ∃ k, k < bs.length ∧ Sink.refusesAfter k s.sink = true ∧
      complete p = .next ((s.wrote (bs.take k) (k + 1) s.crc (s.a, s.b)).raise .sinkWriteFailure) := by
  rcases Sink.accepts_or_refusesAfter bs.length s.sink with ha | ⟨k, hk, hr⟩
  · exact .inl ⟨ha, by rw [h.accepted ha, complete_going]⟩
  · obtain ⟨c', q', e⟩ := h.refused k hk hr
    exact .inr ⟨k, hk, hr, by rw [e, complete_stopped]; rfl⟩

/-- A command that writes keeps `RES`, whether the sink accepts all its bytes or not. -/
theorem Writes.complete_keeps_res {p : Progress} {s : State} {bs : List Byte} {c : Word} {q : Word × Word}
    (h : Writes p s bs c q) : ∃ t, complete p = .next t ∧ t.res = s.res := by
  rcases h.complete_cases with ⟨_, e⟩ | ⟨_, _, _, e⟩ <;> exact ⟨_, e, rfl⟩

/-! ### A pre-check error -/

/-- Raising an error overwrites `STATUS`, so the old value is lost. -/
theorem raise_setStatus (s : State) (x : Byte) (e : ErrorKind) : (s.setStatus x).raise e = s.raise e := by
  cases e <;> rfl

theorem raise_res (s : State) (e : ErrorKind) : (s.raise e).res = s.res := by
  cases e <;> rfl

theorem exec_of_commandError {i : Instr} {s : State} {e : ErrorKind} (h : commandError i s = some e) :
    exec i s = .next (s.setStatus e.code) := by
  rcases exec_cases i s with ⟨e', he, _, hx⟩ | ⟨hn, _⟩ | ⟨hn, _⟩
  · obtain rfl : e' = e := Option.some.inj (he.symm.trans h)
    exact hx
  · exact absurd (hn.symm.trans h) nofun
  · exact absurd (hn.symm.trans h) nofun

theorem commandError_ne_illegal {i : Instr} {s : State} {e : ErrorKind} (h : commandError i s = some e) :
    e ≠ .illegalCommand := by
  rintro rfl
  cases i <;> simp only [commandError, payloadError, dimensionError, imageError, reduceCtorEq] at h
  all_goals split_ifs at h <;> simp at h

theorem code_le_of_ne_illegal {e : ErrorKind} : e ≠ .illegalCommand → e.code.toNat ≤ 5 := by
  cases e <;> decide

/-- What the pre-checks of the image commands say of `IN_LEN`. -/
theorem inLen_eq_expectLen {s : State} (h : imageError s = none) :
    s.inLen.toNat = expectLen s.width s.height s.alpha := by
  obtain ⟨_, _, hl, _, _⟩ := image_facts h
  exact hl

/-! ### `STATUS` (10_state.md R24) -/

/-- The code a command reports: of its pre-check error, of a sink failure, or `OK`. -/
def reportedStatus (i : Instr) (s : State) : Byte :=
  match commandError i s with
  | some e => e.code
  | none => if Sink.accepts (commandOutput i s).length s.sink then statusOk else ErrorKind.sinkWriteFailure.code

theorem reportedStatus_of_error {i : Instr} {s : State} {e : ErrorKind} (h : commandError i s = some e) :
    reportedStatus i s = e.code := by
  rw [reportedStatus, h]

theorem reportedStatus_of_accepts {i : Instr} {s : State} (h : commandError i s = none)
    (ha : Sink.accepts (commandOutput i s).length s.sink = true) : reportedStatus i s = statusOk := by
  rw [reportedStatus, h]
  exact if_pos ha

theorem reportedStatus_of_refuses {i : Instr} {s : State} (h : commandError i s = none)
    (ha : Sink.accepts (commandOutput i s).length s.sink = false) :
    reportedStatus i s = ErrorKind.sinkWriteFailure.code := by
  rw [reportedStatus, h]
  exact if_neg (by simp [ha])

/-- Code 6 is the decoder's, so a decoded command reports at most 5 (60_exceptions.md R276, R277). -/
theorem reportedStatus_le (i : Instr) (s : State) : (reportedStatus i s).toNat ≤ 5 := by
  cases h : commandError i s with
  | some e => exact reportedStatus_of_error h ▸ code_le_of_ne_illegal (commandError_ne_illegal h)
  | none =>
    cases ha : Sink.accepts (commandOutput i s).length s.sink with
    | true => rw [reportedStatus_of_accepts h ha]; decide
    | false => rw [reportedStatus_of_refuses h ha]; decide

/-- Every command answers a next state whose `STATUS` is the reported code. -/
theorem exec_status (i : Instr) (s : State) : ∃ t, exec i s = .next t ∧ t.status = reportedStatus i s := by
  rcases exec_cases i s with ⟨e, he, _, hx⟩ | ⟨hn, p, c, q, hx, hw⟩ | ⟨hn, ho, t, hx, _, hs⟩
  · exact ⟨_, hx, (reportedStatus_of_error he).symm⟩
  · rw [hx]
    rcases hw.complete_cases with ⟨ha, hc⟩ | ⟨k, hk, hr, hc⟩
    · exact ⟨_, hc, (reportedStatus_of_accepts hn ha).symm⟩
    · exact ⟨_, hc, (reportedStatus_of_refuses hn (Sink.accepts_eq_false_of_refusesAfter hk hr)).symm⟩
  · exact ⟨t, hx, by rw [hs, reportedStatus_of_accepts hn (by rw [ho]; rfl)]⟩

/-- Two writes of the same bytes and sums from states that differ in `STATUS` alone end alike. -/
theorem Writes.complete_setStatus {p p' : Progress} {s : State} {x : Byte} {bs : List Byte} {c : Word}
    {q : Word × Word} (h' : Writes p' (s.setStatus x) bs c q) (h : Writes p s bs c q) :
    complete p' = complete p := by
  rcases Sink.accepts_or_refusesAfter bs.length s.sink with ha | ⟨k, hk, hr⟩
  · rw [h.accepted ha, h'.accepted ha]; rfl
  · obtain ⟨c₁, q₁, e⟩ := h.refused k hk hr
    obtain ⟨c₂, q₂, e'⟩ := h'.refused k hk hr
    rw [e, e']; rfl

theorem complete_checked_setStatus {err : Option ErrorKind} {body : State → Progress} {s : State} {x : Byte}
    (h : err = none → complete (body (s.setStatus x)) = complete (body s)) :
    complete (checked err body (s.setStatus x)) = complete (checked err body s) := by
  cases err with
  | none => exact h rfl
  | some e => rw [checked_some, checked_some, complete_stopped, complete_stopped, raise_setStatus]

/-- No command reads `STATUS`. (After a sink failure `crc`, `a`, `b` are equal too only because the model numbers the
unspecified values by a counter that both runs share, log 4.) -/
theorem exec_setStatus (i : Instr) (s : State) (x : Byte) : exec i (s.setStatus x) = exec i s := by
  cases i with
  | clr | setW | setH | setA | crcInit | crcUpd | crcGet | adlInit | adlUpd | adlGet => rfl
  | crc32 => exact (execCrc32_eq _).trans (execCrc32_eq s).symm
  | adler32 => exact (execAdler32_eq _).trans (execAdler32_eq s).symm
  | wrB v => exact (writes_putC v _).complete_setStatus (writes_putC v s)
  | wrD v => exact (writes_putD v _).complete_setStatus (writes_putD v s)
  | wrU16le v => exact (writes_sequence_putC (le16 v) _).complete_setStatus (writes_sequence_putC (le16 v) s)
  | wrU32be v => exact (writes_sequence_putC (be32 v) _).complete_setStatus (writes_sequence_putC (be32 v) s)
  | sig => exact (writes_sequence_emit signature _).complete_setStatus (writes_sequence_emit signature s)
  | iend => exact (writes_iendBody _).complete_setStatus (writes_iendBody s)
  | chunk tag =>
    exact complete_checked_setStatus fun _ => (writes_chunkBody tag _).complete_setStatus (writes_chunkBody tag s)
  | ihdr => exact complete_checked_setStatus fun _ => (writes_ihdrBody _).complete_setStatus (writes_ihdrBody s)
  | idat =>
    exact complete_checked_setStatus fun h =>
      (writes_idatBody _ (inLen_eq_expectLen h)).complete_setStatus (writes_idatBody s (inLen_eq_expectLen h))
  | encode =>
    exact complete_checked_setStatus fun h =>
      (writes_encodeBody _ (inLen_eq_expectLen h)).complete_setStatus (writes_encodeBody s (inLen_eq_expectLen h))

/-- A step on a word that decodes to no command (60_exceptions.md R276). -/
theorem step_illegal_word {s : State} {w : Command} {es : List HostEvent} (hs : s.host = .command w :: es)
    (hw : ∀ i, decode w ≠ .ok i) : step s = .next ((s.setHost es).setStatus ErrorKind.illegalCommand.code) := by
  cases hd : decode w with
  | ok i => exact absurd hd (hw i)
  | error e => exact (step_event hs).trans (runCommand_illegal hd _)

/-- Settles O37: `exec_status` gives the code, `exec_setStatus` that the old one is not read. -/
theorem statusIsOverwrittenByEveryCommand : Obligations.StatusIsOverwrittenByEveryCommand := by
  refine ⟨by decide, fun s w es hs hw => ⟨_, step_illegal_word hs hw, rfl⟩, fun i s x => ?_⟩
  obtain ⟨t, ht, hc⟩ := exec_status i s
  refine ⟨t, t, ht, (exec_setStatus i s x).trans ht, rfl, hc ▸ reportedStatus_le i s, fun _ => rfl,
    fun e he => ?_, fun hn ha => ?_, fun hn ha => ?_⟩
  · exact hc.trans (reportedStatus_of_error he)
  · exact hc.trans (reportedStatus_of_accepts hn ha)
  · exact hc.trans (reportedStatus_of_refuses hn ha)

/-! ### `RES` (10_state.md R25) -/

/-- The commands that write `RES` (10_state.md R20's column "written by"). -/
def resWriters : List Instr := [.crcGet, .crc32, .adlGet, .adler32, .clr]

theorem complete_checked_keeps_res {err : Option ErrorKind} {body : State → Progress} {s : State}
    (h : err = none → ∃ t, complete (body s) = .next t ∧ t.res = s.res) :
    ∃ t, complete (checked err body s) = .next t ∧ t.res = s.res := by
  cases err with
  | none => exact h rfl
  | some e => exact ⟨s.raise e, rfl, raise_res s e⟩

/-- Every other command keeps `RES`. -/
theorem exec_keeps_res {i : Instr} (hi : i ∉ resWriters) (s : State) : ∃ t, exec i s = .next t ∧ t.res = s.res := by
  cases i with
  | crcGet | crc32 | adlGet | adler32 | clr => exact absurd (by decide) hi
  | setW | setH | setA | crcInit | crcUpd | adlInit | adlUpd => exact ⟨_, rfl, rfl⟩
  | wrB v => exact (writes_putC v s).complete_keeps_res
  | wrD v => exact (writes_putD v s).complete_keeps_res
  | wrU16le v => exact (writes_sequence_putC (le16 v) s).complete_keeps_res
  | wrU32be v => exact (writes_sequence_putC (be32 v) s).complete_keeps_res
  | sig => exact (writes_sequence_emit signature s).complete_keeps_res
  | iend => exact (writes_iendBody s).complete_keeps_res
  | chunk tag => exact complete_checked_keeps_res fun _ => (writes_chunkBody tag s).complete_keeps_res
  | ihdr => exact complete_checked_keeps_res fun _ => (writes_ihdrBody s).complete_keeps_res
  | idat => exact complete_checked_keeps_res fun h => (writes_idatBody s (inLen_eq_expectLen h)).complete_keeps_res
  | encode => exact complete_checked_keeps_res fun h => (writes_encodeBody s (inLen_eq_expectLen h)).complete_keeps_res

/-- Settles O38: what each of the five writers delivers, and `exec_keeps_res` for the others. -/
theorem resultRegisterWriters : Obligations.ResultRegisterWriters := by
  intro i s
  by_cases hi : i ∈ resWriters
  · simp only [resWriters, List.mem_cons, List.not_mem_nil, or_false] at hi
    rcases hi with rfl | rfl | rfl | rfl | rfl
    · exact ⟨s.deliverCrc.done, rfl, fun _ => rfl, by simp⟩
    · exact ⟨_, execCrc32_eq s, fun _ => rfl, by simp⟩
    · exact ⟨s.deliverAdler.done, rfl, by simp, fun _ => rfl, by simp⟩
    · exact ⟨_, execAdler32_eq s, by simp, fun _ => rfl, by simp⟩
    · exact ⟨s.resetRegisters.done, rfl, by simp, by simp, fun _ => rfl, by simp⟩
  · obtain ⟨t, ht, hr⟩ := exec_keeps_res hi s
    simp only [resWriters, List.mem_cons, List.not_mem_nil, or_false, not_or] at hi
    exact ⟨t, ht, by simp [hi], by simp [hi], by simp [hi], fun _ _ _ _ _ => hr⟩

/-! ### The registers at reset (10_state.md R35) and the CRC table (R28, R29) -/

/-- A hardware reset between two commands (70_reset_and_hazards.md R300). -/
theorem step_reset {s : State} {es : List HostEvent} (hs : s.host = .reset :: es) :
    step s = .next (s.setHost es).resetRegisters :=
  step_event hs

/-- Settles O3: `resetRegisters` is what both a hardware reset and `CLR` do, and at reset the dimensions are 0. -/
theorem resetValuesOfTheRegisters : Obligations.ResetValuesOfTheRegisters := by
  refine ⟨by decide, fun s es hs => step_reset hs, fun s => rfl, ?_⟩
  have hz : commandError .encode State.reset = some .invalidDimensions := by decide
  exact exec_of_commandError hz

/-- Every entry of the table is what the bit loop gives (10_state.md R29). -/
theorem crcEntry_eq_generated : ∀ i : BitVec 4, crcEntry i = crcEntryGenerated i := by decide

/-- Settles O7: the sixteen listed entries are compared one by one, and `crcEntry_eq_generated` is the loop. -/
theorem crcTableFollowsGenerationLoop : Obligations.CrcTableFollowsGenerationLoop :=
  ⟨by decide, crcEntry_eq_generated⟩

end Sys2Proof.Machine
end

section
/-! PROOFS. What a command appends and when (20_memory.md R54), and which commands give `crc`, `a`, `b` a value again
(60_exceptions.md R278). -/

namespace Sys2Proof.Machine

/-! ### The two ends of a command that no pre-check stops (20_memory.md R54) -/

/-- An accepted command appends its whole output and reports `OK`. -/
theorem exec_accepted {i : Instr} {s : State} (hn : commandError i s = none)
    (ha : Sink.accepts (commandOutput i s).length s.sink = true) :
    ∃ t, exec i s = .next t ∧ t.out = s.out ++ commandOutput i s ∧
      t.sink = s.sink.drop (commandOutput i s).length ∧ t.status = 0 := by
  rcases exec_cases i s with ⟨e, he, _⟩ | ⟨_, p, c, q, hx, hw⟩ | ⟨_, ho, t, hx, hr, hs⟩
  · exact absurd (hn.symm.trans he) nofun
  · exact ⟨_, hx.trans (hw.complete_accepted ha), rfl, rfl, rfl⟩
  · exact ⟨t, hx, by rw [ho, hr.out, List.append_nil], by rw [ho, hr.sink]; rfl, hs⟩

/-- A refused command appends the bytes accepted before the refusal, and fails. A command without output is never
refused. -/
theorem exec_refused {i : Instr} {s : State} {k : Nat} (hn : commandError i s = none)
    (hk : k < (commandOutput i s).length) (hr : Sink.refusesAfter k s.sink = true) :
    SinkFailed s ((commandOutput i s).take k) (exec i s) := by
  rcases exec_cases i s with ⟨e, he, _⟩ | ⟨_, p, c, q, hx, hw⟩ | ⟨_, ho, _⟩
  · exact absurd (hn.symm.trans he) nofun
  · exact hx ▸ hw.complete_refused hk hr
  · rw [ho] at hk
    exact absurd hk (Nat.not_lt_zero k)

/-! ### The sums a command overwrites (60_exceptions.md R278) -/

/-- Two accepted writes that leave the same sums end alike, from states that differ in the CRC register alone. -/
theorem Writes.complete_setCrc {p p' : Progress} {s : State} {x : Word} {bs : List Byte} {c : Word} {q : Word × Word}
    (h' : Writes p' (s.setCrc x) bs c q) (h : Writes p s bs c q) (ha : Sink.accepts bs.length s.sink = true) :
    complete p' = complete p := by
  rw [h'.complete_accepted ha, h.complete_accepted ha]
  rfl

/-- Two accepted writes that leave the same sums end alike, from states that differ in the Adler sums alone. -/
theorem Writes.complete_setAdler {p p' : Progress} {s : State} {r : Word × Word} {bs : List Byte} {c : Word}
    {q : Word × Word} (h' : Writes p' (s.setAdler r) bs c q) (h : Writes p s bs c q)
    (ha : Sink.accepts bs.length s.sink = true) : complete p' = complete p := by
  rw [h'.complete_accepted ha, h.complete_accepted ha]
  rfl

/-- Commands whose pre-checks pass end as their bodies do. -/
theorem complete_checked_congr {err : Option ErrorKind} (hn : err = none) {body : State → Progress} {s t : State}
    (h : complete (body t) = complete (body s)) : complete (checked err body t) = complete (checked err body s) := by
  rw [complete_checked_none hn, complete_checked_none hn, h]

/-- A completing command that writes `crc` without reading it (every frame starts the register afresh, 43_chunk_framer.md
R180) ends the same whatever `crc` held. -/
theorem exec_setCrc {i : Instr} {s : State} (x : Word)
    (hi : i ∈ [.clr, .crcInit, .crc32, .ihdr, .idat, .iend, .encode] ∨ ∃ tag, i = .chunk tag)
    (hn : commandError i s = none) (ha : Sink.accepts (commandOutput i s).length s.sink = true) :
    exec i (s.setCrc x) = exec i s := by
  simp only [List.mem_cons, List.not_mem_nil, or_false] at hi
  rcases hi with (rfl | rfl | rfl | rfl | rfl | rfl | rfl) | ⟨tag, rfl⟩
  · rfl
  · rfl
  · exact (execCrc32_eq _).trans (execCrc32_eq s).symm
  · exact complete_checked_congr hn ((writes_ihdrBody _).complete_setCrc (writes_ihdrBody s) ha)
  · have hl := inLen_eq_expectLen hn
    exact complete_checked_congr hn ((writes_idatBody (s.setCrc x) hl).complete_setCrc (writes_idatBody s hl) ha)
  · exact (writes_iendBody _).complete_setCrc (writes_iendBody s) ha
  · have hl := inLen_eq_expectLen hn
    exact complete_checked_congr hn ((writes_encodeBody (s.setCrc x) hl).complete_setCrc (writes_encodeBody s hl) ha)
  · exact complete_checked_congr hn ((writes_chunkBody tag _).complete_setCrc (writes_chunkBody tag s) ha)

/-- A completing command that writes `a` and `b` without reading them (the IDAT payload starts the sums afresh,
44_idat_deflate.md R210) ends the same whatever they held. -/
theorem exec_setAdler {i : Instr} {s : State} (r : Word × Word)
    (hi : i ∈ [.clr, .adlInit, .adler32, .idat, .encode])
    (hn : commandError i s = none) (ha : Sink.accepts (commandOutput i s).length s.sink = true) :
    exec i (s.setAdler r) = exec i s := by
  simp only [List.mem_cons, List.not_mem_nil, or_false] at hi
  rcases hi with rfl | rfl | rfl | rfl | rfl
  · rfl
  · rfl
  · exact (execAdler32_eq _).trans (execAdler32_eq s).symm
  · have hl := inLen_eq_expectLen hn
    exact complete_checked_congr hn ((writes_idatBody (s.setAdler r) hl).complete_setAdler (writes_idatBody s hl) ha)
  · have hl := inLen_eq_expectLen hn
    exact complete_checked_congr hn ((writes_encodeBody (s.setAdler r) hl).complete_setAdler (writes_encodeBody s hl) ha)

/-- Settles O35: `step_illegal_word` for the words that decode to no command, `exec_setCrc` and `exec_setAdler` for the
sums given a value again, and the three ends of a command: `exec_of_commandError`, `exec_accepted`, `exec_refused`. -/
theorem outputIsWholeOrStrictPrefix : Obligations.OutputIsWholeOrStrictPrefix :=
  ⟨fun _ _ _ hs hw => step_illegal_word hs hw,
    fun _ _ c hi hn ha => exec_setCrc c hi hn ha,
    fun _ _ a b hi hn ha => exec_setAdler (a, b) hi hn ha,
    fun _ _ => ⟨fun _ he => exec_of_commandError he,
      fun hn => ⟨exec_accepted hn, fun _ hk hr => exec_refused hn hk hr⟩⟩⟩

end Sys2Proof.Machine
end

section
/-! PROOFS. The command words (30_encoding.md part B): the encoder and the decoder are each other's inverse, which words
a row of the opcode map selects (R101, R103), and the five bytes of a word (R105). -/

namespace Sys2Proof.Machine

/-! ### The fields of a word -/

theorem opcodeOf_and (w m : Command) : opcodeOf (w &&& m) = opcodeOf w &&& opcodeOf m :=
  BitVec.extractLsb'_and

theorem argumentOf_and (w m : Command) : argumentOf (w &&& m) = argumentOf w &&& argumentOf m :=
  BitVec.extractLsb'_and

/-! ### Decoding and encoding (30_encoding.md R101, R102) -/

theorem decode_encodeWord (i : Instr) : decode (encodeWord i) = .ok i := by
  cases i with
  | clr | crcInit | crcGet | crc32 | adlInit | adlGet | adler32 | sig | ihdr | idat | iend | encode => decide
  | setW v | setH v | setA v | crcUpd v | adlUpd v | wrB v | wrD v | wrU16le v | wrU32be v | chunk v =>
    simpa only [encodeWord, BitVec.setWidth_eq] using
      (encodedAs_of_arm (by decide) fun arg => by
        simp only [decode, opcodeOf_commandWord, argumentOf_commandWord]; rfl).1 v

theorem setWidth_setWidth_of_shift {arg : Word} {n : Nat} (h : arg >>> n = 0) :
    (arg.setWidth n).setWidth 32 = arg := by
  apply BitVec.eq_of_toNat_eq
  have hlt := lt_two_pow_of_shift h
  rw [BitVec.toNat_setWidth, BitVec.toNat_setWidth, Nat.mod_eq_of_lt hlt, Nat.mod_eq_of_lt arg.isLt]

/-- What an arm of the decoder accepts is the encoding of the command that the arm makes. -/
theorem encodeWord_of_withOperand {op : Byte} {arg : Word} {n k : Nat} {mk : BitVec n → Instr} {i : Instr}
    (hop : op.toNat = k) (hmk : ∀ v, encodeWord (mk v) = commandWord (BitVec.ofNat 8 k) (v.setWidth 32))
    (h : withOperand n op arg mk = .ok i) : encodeWord i = commandWord op arg := by
  obtain ⟨hs, rfl⟩ := withOperand_eq_ok.mp h
  rw [hmk, setWidth_setWidth_of_shift hs, ← hop, BitVec.ofNat_toNat, BitVec.setWidth_eq]

theorem encodeWord_of_decode {w : Command} {i : Instr} (h : decode w = .ok i) : encodeWord i = w := by
  rw [← commandWord_fields w]
  simp only [decode] at h
  split at h
  case h_23 => cases h
  all_goals
    next hop => exact encodeWord_of_withOperand hop (fun v => by simp [encodeWord, BitVec.of_length_zero]) h

/-! ### The rows of the opcode map (30_encoding.md R101) -/

/-- The row of a command selects its encoding. -/
theorem rowOf_statement (i : Instr) : Laws.TableRow.Statement i := by
  cases i with
  | clr => exact Laws.TableRow.clr
  | setW w => exact Laws.TableRow.setW w
  | setH h => exact Laws.TableRow.setH h
  | setA f => exact Laws.TableRow.setA f
  | crcInit => exact Laws.TableRow.crcInit
  | crcUpd d => exact Laws.TableRow.crcUpd d
  | crcGet => exact Laws.TableRow.crcGet
  | crc32 => exact Laws.TableRow.crc32
  | adlInit => exact Laws.TableRow.adlInit
  | adlUpd d => exact Laws.TableRow.adlUpd d
  | adlGet => exact Laws.TableRow.adlGet
  | adler32 => exact Laws.TableRow.adler32
  | wrB v => exact Laws.TableRow.wrB v
  | wrD v => exact Laws.TableRow.wrD v
  | wrU16le v => exact Laws.TableRow.wrU16le v
  | wrU32be v => exact Laws.TableRow.wrU32be v
  | chunk tag => exact Laws.TableRow.chunk tag
  | sig => exact Laws.TableRow.sig
  | ihdr => exact Laws.TableRow.ihdr
  | idat => exact Laws.TableRow.idat
  | iend => exact Laws.TableRow.iend
  | encode => exact Laws.TableRow.encode

/-- A word that decodes is selected by the row of its command. -/
theorem selected_of_decode {w : Command} {i : Instr} (h : decode w = .ok i) :
    ∃ r ∈ commandTable, w &&& r.mask = r.pattern := by
  obtain ⟨hsel, hmem⟩ := rowOf_statement i
  rw [encodeWord_of_decode h, TableRow.selects, beq_iff_eq] at hsel
  exact ⟨Laws.rowOf i, hmem, hsel⟩

/-- Every mask covers the whole opcode field. -/
theorem opcodeOf_mask : ∀ r ∈ commandTable, opcodeOf r.mask = 0xFF := by decide

/-- No pattern has an argument bit that is 1. -/
theorem argumentOf_pattern : ∀ r ∈ commandTable, argumentOf r.pattern = 0 := by decide

/-- The opcodes of the rows, all different. -/
theorem nodup_opcodes : (commandTable.map fun r => opcodeOf r.pattern).Nodup := by decide

/-- A word has the opcode of a row that selects it. -/
theorem opcodeOf_eq_of_selected {w : Command} {r : TableRow} (hr : r ∈ commandTable) (h : w &&& r.mask = r.pattern) :
    opcodeOf w = opcodeOf r.pattern := by
  rw [← h, opcodeOf_and, opcodeOf_mask r hr]
  exact BitVec.and_allOnes.symm

/-- A word has no argument bit outside the field of a row that selects it. -/
theorem argumentOf_and_mask_of_selected {w : Command} {r : TableRow} (hr : r ∈ commandTable)
    (h : w &&& r.mask = r.pattern) : argumentOf w &&& argumentOf r.mask = 0 := by
  rw [← argumentOf_and, h, argumentOf_pattern r hr]

/-- A row is known by its opcode. -/
theorem row_eq_of_opcodeOf_eq {r r' : TableRow} (hr : r ∈ commandTable) (hr' : r' ∈ commandTable)
    (h : opcodeOf r.pattern = opcodeOf r'.pattern) : r = r' :=
  List.inj_on_of_nodup_map nodup_opcodes hr hr' h

/-- The opcodes that 30_encoding.md R101 lists. -/
theorem opcodeOf_pattern_mem : ∀ r ∈ commandTable, opcodeOf r.pattern ∈
    ([0x01, 0x02, 0x03, 0x04, 0x10, 0x11, 0x12, 0x13, 0x20, 0x21, 0x22, 0x23,
      0x30, 0x31, 0x32, 0x33, 0x40, 0x41, 0x42, 0x43, 0x44, 0x45] : List Byte) := by decide

/-- Settles O45: a word that no row selects cannot decode (`selected_of_decode`), and a row that selects a word fixes
its opcode and the argument bits outside the row's field. -/
theorem illegalWordChangesStatusOnly : Obligations.IllegalWordChangesStatusOnly := by
  refine ⟨fun s w es hs hw => ?_, fun w hw r hr h => ?_, fun w r hr hop harg r' hr' h => ?_, by decide⟩
  · refine step_illegal_word hs fun i hd => ?_
    obtain ⟨r, hr, h⟩ := selected_of_decode hd
    exact hw r hr h
  · exact hw (opcodeOf_eq_of_selected hr h ▸ opcodeOf_pattern_mem r hr)
  · obtain rfl := row_eq_of_opcodeOf_eq hr hr' (hop.symm.trans (opcodeOf_eq_of_selected hr' h))
    exact harg (argumentOf_and_mask_of_selected hr h)

/-! ### The byte channel (30_encoding.md R105) -/

/-- A byte of the word below the opcode is a byte of the argument. -/
theorem extractLsb'_argumentOf (w : Command) {k : Nat} (hk : k + 8 ≤ 32) :
    (argumentOf w).extractLsb' k 8 = w.extractLsb' k 8 := by
  apply BitVec.eq_of_getLsbD_eq
  intro i hi
  have h : k + i < 32 := by omega
  simp [argumentOf, hi, h]

theorem bytesOfWord_eq (w : Command) : bytesOfWord w = opcodeOf w :: be32 (argumentOf w) := by
  rw [be32, extractLsb'_argumentOf w (by decide), extractLsb'_argumentOf w (by decide),
    extractLsb'_argumentOf w (by decide), extractLsb'_argumentOf w (by decide)]
  rfl

theorem bigEndianWord_be32 (v : Word) :
    bigEndianWord (v.extractLsb' 24 8) (v.extractLsb' 16 8) (v.extractLsb' 8 8) (v.extractLsb' 0 8) = v := by
  apply BitVec.eq_of_toNat_eq
  have hv := v.isLt
  rw [toNat_bigEndianWord]
  simp only [BitVec.extractLsb'_toNat, Nat.shiftRight_eq_div_pow]
  omega

/-- The decoder over a byte channel reads a word's five bytes as that word. -/
theorem decodeBytes_bytesOfWord (w : Command) (rest : List Byte) :
    decodeBytes (bytesOfWord w ++ rest) = (decode w).map fun i => (i, rest) := by
  rw [bytesOfWord_eq, be32]
  change (decode (wordOfBytes _ _ _ _ _)).map _ = _
  rw [wordOfBytes, bigEndianWord_be32, commandWord_fields]
  rfl

/-- Settles O52: `bytesOfWord_eq` for the order of the bytes, `decodeBytes_bytesOfWord` with `decode_encodeWord` for
reading them back, and the three examples computed. -/
theorem byteChannelCarriesFiveBytes : Obligations.ByteChannelCarriesFiveBytes := by
  refine ⟨fun op arg => ?_, fun i rest => ?_, by decide, by decide, by decide⟩
  · rw [bytesOfWord_eq, opcodeOf_commandWord, argumentOf_commandWord]
  · rw [encodeBytes, decodeBytes_bytesOfWord, decode_encodeWord]
    rfl

end Sys2Proof.Machine
end

section
/-! PROOFS. Where each field of the output stands: the stored-block prefix of a row (30_encoding.md R87, R88), and the
layout of the whole file (R93). -/

namespace Sys2Proof.Machine

/-! ### The stored-block prefix (30_encoding.md R87, R88) -/

/-- `NLEN` is what is missing from `LEN` to 65535. -/
theorem not_ofNat_of_le {n : Nat} (h : n ≤ 65535) : ~~~(BitVec.ofNat 16 n) = BitVec.ofNat 16 (65535 - n) := by
  apply BitVec.eq_of_toNat_eq
  rw [BitVec.toNat_not, BitVec.toNat_ofNat, BitVec.toNat_ofNat]
  omega

/-- The five bytes before a row's data. -/
theorem rowPrefix_eq {w h : Word} {f : Flag} {y : Nat} (hrs : rowStride w f ≤ 65535) (hy : y < h.toNat) :
    rowPrefix w h f y = [if y = h.toNat - 1 then 0x01 else 0x00] ++ le16 (BitVec.ofNat 16 (rowStride w f)) ++
      le16 (BitVec.ofNat 16 (65535 - rowStride w f)) := by
  have hlast : (y + 1 == h.toNat) = decide (y = h.toNat - 1) := by
    rw [beq_eq_decide]
    exact decide_eq_decide.mpr (by omega)
  rw [← not_ofNat_of_le hrs, rowPrefix, blockHeader, hlast]
  simp only [decide_eq_true_eq, List.cons_append, List.nil_append]

/-- The low and the high byte of a 16-bit value, as numbers. -/
theorem le16_ofNat {n : Nat} (h : n ≤ 65535) : ∃ l0 l1 : Byte,
    le16 (BitVec.ofNat 16 n) = [l0, l1] ∧ l0.toNat = n % 256 ∧ l1.toNat = n / 256 := by
  refine ⟨_, _, rfl, ?_, ?_⟩ <;>
    rw [BitVec.extractLsb'_toNat, BitVec.toNat_ofNat, Nat.shiftRight_eq_div_pow] <;> omega

/-- Settles O30: `rowPrefix_eq` gives the bytes, `le16_ofNat` the numbers that `LEN` and `NLEN` are. -/
theorem storedBlockHeaderAndLengths : Obligations.StoredBlockHeaderAndLengths := by
  intro w h f y hrs hy
  obtain ⟨l0, l1, hl, hl0, hl1⟩ := le16_ofNat hrs
  obtain ⟨n0, n1, hn, hn0, hn1⟩ := le16_ofNat (Nat.sub_le 65535 (rowStride w f))
  refine ⟨l0, l1, n0, n1, ?_, ?_⟩
  · rw [rowPrefix_eq hrs hy, hl, hn]
    rfl
  · omega

/-! ### A field at an offset -/

/-- The bytes `x` stand at offset `off` of `l`. -/
def StandsAt (off : Nat) (x l : List Byte) : Prop := x <+: l.drop off

theorem StandsAt.take_drop {off n : Nat} {x l : List Byte} (h : StandsAt off x l) (hn : x.length = n) :
    (l.drop off).take n = x := by
  subst hn
  exact (List.prefix_iff_eq_take.mp h).symm

/-- A field of a field. -/
theorem StandsAt.trans {off i : Nat} {y x l : List Byte} (hy : StandsAt i y x) (hx : StandsAt off x l) :
    StandsAt (off + i) y l := by
  have h := hx.drop i
  rw [List.drop_drop] at h
  exact List.IsPrefix.trans hy h

theorem StandsAt.append_right {off : Nat} {x l : List Byte} (h : StandsAt off x l) (q : List Byte) :
    StandsAt off x (l ++ q) :=
  List.IsPrefix.trans h ((List.prefix_append l q).drop off)

theorem standsAt_append_left {off : Nat} {p : List Byte} (hp : p.length = off) (x : List Byte) :
    StandsAt off x (p ++ x) := by
  rw [StandsAt, List.drop_left' hp]

theorem standsAt_zero (x q : List Byte) : StandsAt 0 x (x ++ q) :=
  List.prefix_append x q

/-- Pieces of equal length one after the other. -/
theorem standsAt_flatMap_range {g : Nat → List Byte} {m n : Nat} (hg : ∀ y < m, (g y).length = n) {y : Nat}
    (hy : y < m) : StandsAt (y * n) (g y) ((List.range m).flatMap g) := by
  induction m with
  | zero => exact absurd hy (Nat.not_lt_zero y)
  | succ m ih =>
    have hm : ∀ z < m, (g z).length = n := fun z hz => hg z (Nat.lt_succ_of_lt hz)
    rw [List.range_succ, List.flatMap_append, List.flatMap_singleton]
    rcases Nat.lt_succ_iff_lt_or_eq.mp hy with hlt | rfl
    · exact (ih hm hlt).append_right _
    · refine standsAt_append_left ?_ _
      rw [length_flatMap_const _ g n (fun z hz => hm z (List.mem_range.mp hz)), List.length_range]

/-! ### The fields of a chunk (30_encoding.md R81) -/

theorem standsAt_chunkLength (tag : Word) (p : List Byte) :
    StandsAt 0 (be32 (BitVec.ofNat 32 p.length)) (chunkBytes tag p) :=
  ((standsAt_zero _ _).append_right _).append_right _

theorem standsAt_chunkTag (tag : Word) (p : List Byte) : StandsAt 4 (be32 tag) (chunkBytes tag p) :=
  ((standsAt_append_left (by rfl) _).append_right _).append_right _

theorem standsAt_chunkPayload (tag : Word) (p : List Byte) : StandsAt 8 p (chunkBytes tag p) :=
  (standsAt_append_left (by rfl) _).append_right _

/-- What the chunk's CRC is taken over. -/
theorem standsAt_chunkTagPayload (tag : Word) (p : List Byte) : StandsAt 4 (be32 tag ++ p) (chunkBytes tag p) := by
  rw [chunkBytes, List.append_assoc (be32 _)]
  exact (standsAt_append_left (by rfl) _).append_right _

theorem standsAt_chunkCrc (tag : Word) (p : List Byte) :
    StandsAt (8 + p.length) (be32 (crc32 (be32 tag ++ p))) (chunkBytes tag p) :=
  standsAt_append_left (by simp only [List.length_append, length_be32]) _

/-! ### The fields of the file (30_encoding.md R93) -/

section
variable {w h : Word} {f : Flag} {pix : List Byte}

theorem standsAt_signature : StandsAt 0 signature (pngFile w h f pix) :=
  ((standsAt_zero _ _).append_right _).append_right _

theorem standsAt_ihdrChunk : StandsAt 8 (chunkBytes tagIHDR (ihdrPayload w h f)) (pngFile w h f pix) :=
  ((standsAt_append_left (by rfl) _).append_right _).append_right _

theorem standsAt_ihdrLength : StandsAt 8 [0x00, 0x00, 0x00, 0x0D] (pngFile w h f pix) := by
  have e : be32 (BitVec.ofNat 32 (ihdrPayload w h f).length) = [0x00, 0x00, 0x00, 0x0D] := by
    rw [length_ihdrPayload]; decide
  exact e ▸ (standsAt_chunkLength _ _).trans standsAt_ihdrChunk

theorem standsAt_ihdrTag : StandsAt 12 (be32 tagIHDR) (pngFile w h f pix) :=
  (standsAt_chunkTag _ _).trans standsAt_ihdrChunk

theorem standsAt_ihdrTagPayload : StandsAt 12 (be32 tagIHDR ++ ihdrPayload w h f) (pngFile w h f pix) :=
  (standsAt_chunkTagPayload _ _).trans standsAt_ihdrChunk

theorem standsAt_ihdrPayload : StandsAt 16 (ihdrPayload w h f) (pngFile w h f pix) :=
  (standsAt_chunkPayload _ _).trans standsAt_ihdrChunk

theorem standsAt_width : StandsAt 16 (be32 w) (pngFile w h f pix) :=
  ((standsAt_zero _ _).append_right _ : StandsAt 0 _ (ihdrPayload w h f)).trans standsAt_ihdrPayload

theorem standsAt_height : StandsAt 20 (be32 h) (pngFile w h f pix) :=
  ((standsAt_append_left (by rfl) _).append_right _ : StandsAt 4 _ (ihdrPayload w h f)).trans standsAt_ihdrPayload

/-- Bit depth, colour type, and the three zero bytes. -/
theorem standsAt_colourFields : StandsAt 24 [bitDepth, colorType f, 0x00, 0x00, 0x00] (pngFile w h f pix) :=
  (standsAt_append_left (by rfl) _ : StandsAt 8 _ (ihdrPayload w h f)).trans standsAt_ihdrPayload

theorem standsAt_ihdrCrc :
    StandsAt 29 (be32 (crc32 (be32 tagIHDR ++ ihdrPayload w h f))) (pngFile w h f pix) :=
  (standsAt_chunkCrc _ _).trans standsAt_ihdrChunk

theorem standsAt_idatChunk : StandsAt 33 (chunkBytes tagIDAT (idatPayload w h f pix)) (pngFile w h f pix) :=
  (standsAt_append_left (by rfl) _).append_right _

theorem standsAt_idatTag : StandsAt 37 (be32 tagIDAT) (pngFile w h f pix) :=
  (standsAt_chunkTag _ _).trans standsAt_idatChunk

theorem standsAt_idatTagPayload : StandsAt 37 (be32 tagIDAT ++ idatPayload w h f pix) (pngFile w h f pix) :=
  (standsAt_chunkTagPayload _ _).trans standsAt_idatChunk

theorem standsAt_idatPayload : StandsAt 41 (idatPayload w h f pix) (pngFile w h f pix) :=
  (standsAt_chunkPayload _ _).trans standsAt_idatChunk

theorem standsAt_zlibHeader : StandsAt 41 zlibHeader (pngFile w h f pix) :=
  ((standsAt_zero _ _).append_right _ : StandsAt 0 zlibHeader (idatPayload w h f pix)).trans standsAt_idatPayload

/-- The rows together. -/
theorem standsAt_rows :
    StandsAt 43 ((List.range h.toNat).flatMap (rowBlock w h f pix)) (pngFile w h f pix) :=
  ((standsAt_append_left (by rfl) _).append_right _ : StandsAt 2 _ (idatPayload w h f pix)).trans standsAt_idatPayload

variable (hp : pix.length = expectLen w h f)
include hp

theorem standsAt_idatLength :
    StandsAt 33 (be32 (BitVec.ofNat 32 (2 + h.toNat * (5 + rowStride w f) + 4))) (pngFile w h f pix) := by
  rw [← idatLen, ← length_idatPayload hp]
  exact (standsAt_chunkLength _ _).trans standsAt_idatChunk

theorem standsAt_rowBlock {y : Nat} (hy : y < h.toNat) :
    StandsAt (43 + y * (5 + rowStride w f)) (rowBlock w h f pix y) (pngFile w h f pix) :=
  (standsAt_flatMap_range (fun _ hz => length_rowBlock hp hz) hy).trans standsAt_rows

/-- The header byte, `LEN` and `NLEN` of a row. -/
theorem standsAt_rowPrefixFields (hrs : rowStride w f ≤ 65535) {y : Nat} (hy : y < h.toNat) :
    let row := 43 + y * (5 + rowStride w f)
    StandsAt row [if y = h.toNat - 1 then 0x01 else 0x00] (pngFile w h f pix) ∧
    StandsAt (row + 1) (le16 (BitVec.ofNat 16 (rowStride w f))) (pngFile w h f pix) ∧
    StandsAt (row + 3) (le16 (BitVec.ofNat 16 (65535 - rowStride w f))) (pngFile w h f pix) := by
  intro row
  have hpre : StandsAt row (rowPrefix w h f y) (pngFile w h f pix) :=
    (standsAt_zero _ _).trans (standsAt_rowBlock hp hy)
  rw [rowPrefix_eq hrs hy] at hpre
  refine ⟨?_, ?_, ?_⟩
  · exact ((standsAt_zero _ _).append_right _).trans hpre
  · exact ((standsAt_append_left (by rfl) _).append_right _).trans hpre
  · exact (standsAt_append_left (by rfl) _).trans hpre

/-- The filter byte and the pixels of a row. -/
theorem standsAt_rowData {y : Nat} (hy : y < h.toNat) :
    StandsAt (43 + y * (5 + rowStride w f) + 5) (rowData w f pix y) (pngFile w h f pix) :=
  (standsAt_append_left (by rfl) _ : StandsAt 5 _ (rowBlock w h f pix y)).trans (standsAt_rowBlock hp hy)

theorem standsAt_filterByte {y : Nat} (hy : y < h.toNat) :
    StandsAt (43 + y * (5 + rowStride w f) + 5) [filterByte] (pngFile w h f pix) :=
  (standsAt_zero _ _ : StandsAt 0 _ ([filterByte] ++ rowPixels w f pix y)).trans (standsAt_rowData hp hy)

theorem standsAt_rowPixels {y : Nat} (hy : y < h.toNat) :
    StandsAt (43 + y * (5 + rowStride w f) + 6) (rowPixels w f pix y) (pngFile w h f pix) :=
  (standsAt_append_left (by rfl) _ : StandsAt 1 _ ([filterByte] ++ rowPixels w f pix y)).trans (standsAt_rowData hp hy)

theorem length_rowData {y : Nat} (hy : y < h.toNat) : (rowData w f pix y).length = rowStride w f :=
  congrArg (· + 1) (length_rowPixels hp hy)

theorem length_rows :
    ((List.range h.toNat).flatMap (rowBlock w h f pix)).length = h.toNat * (5 + rowStride w f) := by
  rw [length_flatMap_const _ _ _ fun y hy => length_rowBlock hp (List.mem_range.mp hy), List.length_range]

theorem standsAt_adlerTrailer :
    StandsAt (43 + h.toNat * (5 + rowStride w f)) (be32 (adler32 (uncompressed w h f pix))) (pngFile w h f pix) := by
  have hpay : StandsAt (2 + h.toNat * (5 + rowStride w f)) (be32 (adler32 (uncompressed w h f pix)))
      (idatPayload w h f pix) :=
    standsAt_append_left (by rw [List.length_append, length_zlibHeader, length_rows hp]) _
  have hfile := hpay.trans standsAt_idatPayload
  rwa [← Nat.add_assoc] at hfile

theorem standsAt_idatCrc :
    StandsAt (43 + h.toNat * (5 + rowStride w f) + 4) (be32 (crc32 (be32 tagIDAT ++ idatPayload w h f pix)))
      (pngFile w h f pix) := by
  have hfile := (standsAt_chunkCrc tagIDAT (idatPayload w h f pix)).trans (standsAt_idatChunk (h := h))
  rwa [length_idatPayload hp, idatLen, ← Nat.add_assoc, ← Nat.add_assoc, ← Nat.add_assoc] at hfile

theorem standsAt_iendChunk :
    StandsAt (43 + h.toNat * (5 + rowStride w f) + 8) (chunkBytes tagIEND []) (pngFile w h f pix) := by
  refine standsAt_append_left ?_ _
  simp only [List.length_append, length_chunkBytes, length_idatPayload hp, length_signature, length_ihdrPayload,
    idatLen]
  omega

end

/-- Settles O32: `OUT` is `pngFile` (`exec_accepted`), of which `StandsAt` gives each field its offset. What the three
checksums are taken over are fields of `OUT` themselves (`hihdr`, `hidat`, `hrows`). -/
theorem encodedFileLayout : Obligations.EncodedFileLayout := by
  intro s hout hn rs h ha
  have hp : s.inBytes.length = expectLen s.width s.height s.alpha := by
    rw [State.length_inBytes, inLen_eq_expectLen hn]
  have hlen := length_pngFile hp
  obtain ⟨_, _, _, hrs, _⟩ := image_facts hn
  obtain ⟨t, hx, ho, _, _⟩ := exec_accepted (i := .encode) hn (by rw [commandOutput, hlen]; exact ha)
  rw [hout, List.nil_append, commandOutput] at ho
  refine ⟨t, hx, ?_⟩
  rw [ho]
  intro field row
  have hihdr : field 12 17 = be32 tagIHDR ++ ihdrPayload s.width s.height s.alpha :=
    standsAt_ihdrTagPayload.take_drop rfl
  have hidat : field 37 (row h + 4 - 37) = be32 tagIDAT ++ idatPayload s.width s.height s.alpha s.inBytes := by
    refine standsAt_idatTagPayload.take_drop ?_
    simp only [row, h, rs, List.length_append, length_be32, length_idatPayload hp, idatLen]
    omega
  have hrows : (List.range h).flatMap (fun y => field (row y + 5) rs) =
      uncompressed s.width s.height s.alpha s.inBytes :=
    List.flatMap_congr fun y hy =>
      (standsAt_rowData hp (List.mem_range.mp hy)).take_drop (length_rowData hp (List.mem_range.mp hy))
  rw [hihdr, hidat, hrows]
  refine ⟨hlen, standsAt_signature.take_drop rfl, standsAt_ihdrLength.take_drop rfl, standsAt_ihdrTag.take_drop rfl,
    standsAt_width.take_drop rfl, standsAt_height.take_drop rfl, standsAt_colourFields.take_drop rfl,
    standsAt_ihdrCrc.take_drop rfl, (standsAt_idatLength hp).take_drop rfl, standsAt_idatTag.take_drop rfl,
    standsAt_zlibHeader.take_drop rfl, fun y hy => ?_, (standsAt_adlerTrailer hp).take_drop rfl,
    (standsAt_idatCrc hp).take_drop rfl, (standsAt_iendChunk hp).take_drop rfl⟩
  obtain ⟨hh, hl, hnl⟩ := standsAt_rowPrefixFields hp hrs hy
  exact ⟨hh.take_drop rfl, hl.take_drop rfl, hnl.take_drop rfl, (standsAt_filterByte hp hy).take_drop rfl,
    (standsAt_rowPixels hp hy).take_drop (length_rowPixels hp hy)⟩

end Sys2Proof.Machine
end

section
/-! PROOFS. The CRC-32 (40_crc32.md): the nibble-table step is eight turns of the bit loop (R121), the contract of a
folded sequence (R122), and the four commands (R123 to R126). -/

namespace Sys2Proof.Machine

/-! ### The nibble-table step (40_crc32.md R121) -/

/-- One turn of the bit loop is linear: the polynomial comes in as often as the lowest bits of `x` and `y` say. -/
theorem crcBit_xor (x y : Word) : crcBit (x ^^^ y) = crcBit x ^^^ crcBit y := by
  have hpoly : ∀ p q : Bool, (if (p ^^ q) = true then crcPoly else 0) =
      (if p = true then crcPoly else 0) ^^^ (if q = true then crcPoly else 0) := by decide
  simp only [crcBit, BitVec.ushiftRight_xor_distrib, BitVec.getLsbD_xor, hpoly]
  ac_rfl

theorem repeat_crcBit_xor (n : Nat) (x y : Word) :
    Nat.repeat crcBit n (x ^^^ y) = Nat.repeat crcBit n x ^^^ Nat.repeat crcBit n y := by
  induction n with
  | zero => rfl
  | succ n ih => simp only [Nat.repeat, ih, crcBit_xor]

/-- While the bits shifted out are 0 the bit loop only shifts. -/
theorem repeat_crcBit_eq_shift {n : Nat} {c : Word} (h : ∀ i < n, c.getLsbD i = false) :
    Nat.repeat crcBit n c = c >>> n := by
  induction n with
  | zero => simp [Nat.repeat]
  | succ n ih =>
    have hn : (c >>> n).getLsbD 0 = false := by simpa using h n (Nat.lt_succ_self n)
    rw [Nat.repeat, ih fun i hi => h i (Nat.lt_succ_of_lt hi), crcBit, hn, BitVec.shiftRight_add]
    simp

/-- A word without its low nibble is only shifted by four turns of the bit loop. -/
theorem repeat_crcBit_clear_low_nibble (c : Word) :
    Nat.repeat crcBit 4 ((c.extractLsb' 0 4).setWidth 32 ^^^ c) = c >>> 4 := by
  have hlow : ((c.extractLsb' 0 4).setWidth 32 : Word) >>> 4 = 0#32 :=
    shift_eq_zero_of_lt (by rw [BitVec.toNat_setWidth, BitVec.extractLsb'_toNat]; omega)
  rw [repeat_crcBit_eq_shift fun i hi => by simp [hi, Nat.lt_trans hi], BitVec.ushiftRight_xor_distrib, hlow,
    BitVec.zero_xor]

/-- One 4-bit reduction is four turns of the bit loop: the table holds what becomes of the low nibble
(`crcEntry_eq_generated`), and the bits above it are only shifted. -/
theorem crcNibble_eq_repeat (c : Word) : crcNibble c = Nat.repeat crcBit 4 c := by
  calc crcNibble c
      = crcEntryGenerated (c.extractLsb' 0 4) ^^^ c >>> 4 := by rw [crcNibble, crcEntry_eq_generated]
    _ = Nat.repeat crcBit 4 ((c.extractLsb' 0 4).setWidth 32 ^^^ ((c.extractLsb' 0 4).setWidth 32 ^^^ c)) := by
      rw [repeat_crcBit_xor, repeat_crcBit_clear_low_nibble, crcEntryGenerated]
    _ = Nat.repeat crcBit 4 c := by rw [← BitVec.xor_assoc, BitVec.xor_self, BitVec.zero_xor]

/-- Settles O6: each of the two 4-bit reductions of a byte is four turns of the bit loop (`crcNibble_eq_repeat`). -/
theorem nibbleStepEqualsBitSerialStep : Obligations.NibbleStepEqualsBitSerialStep := by
  intro c d
  rw [crcStep, crcNibble_eq_repeat, crcNibble_eq_repeat]
  rfl

/-! ### The contract of a folded sequence (40_crc32.md R122) -/

/-- Settles O9: a fold over a concatenation is the fold of the second part from the register the first part left
(`crcFold_append`). -/
theorem crcContractIsIncremental : Obligations.CrcContractIsIncremental := by
  refine ⟨fun bs => rfl, by decide, fun bs cs => ?_⟩
  rw [crc32, crcFold_append]
  rfl

/-! ### The commands (40_crc32.md R123 to R126) -/

/-- The decoder's arms for the four opcodes of the family (30_encoding.md R101). -/
theorem encodedAs_crcFamily :
    EncodedAs 0x10 0 (fun _ => .crcInit) ∧ EncodedAs 0x11 8 .crcUpd ∧ EncodedAs 0x12 0 (fun _ => .crcGet) ∧
      EncodedAs 0x13 0 (fun _ => .crc32) := by
  refine ⟨?_, ?_, ?_, ?_⟩
  all_goals
    refine encodedAs_of_arm (by decide) fun arg => ?_
    rw [decode, opcodeOf_commandWord, argumentOf_commandWord]
    rfl

/-- Settles O4: each of the three commands is one register update and `done`. -/
theorem crcPrimitiveCommands : Obligations.CrcPrimitiveCommands := by
  obtain ⟨hinit, hupd, hget, -⟩ := encodedAs_crcFamily
  exact ⟨⟨hinit, hupd, hget⟩, fun s => ⟨rfl, fun d => rfl, rfl⟩⟩

/-- Settles O5: the read loop is the fold over `IN` (`execCrc32_eq`), whatever `IN_LEN`. -/
theorem crcOfInputBuffer : Obligations.CrcOfInputBuffer := by
  obtain ⟨-, -, -, hcrc32⟩ := encodedAs_crcFamily
  exact ⟨hcrc32, execCrc32_eq⟩

end Sys2Proof.Machine
end

section
/-! PROOFS. The Adler-32 (41_adler32.md): the reduced sums (R140), the value that joins them (R141), the four commands
(R142 to R145), and sums reduced once per block (R146). -/

namespace Sys2Proof.Machine

/-! ### One step (41_adler32.md R140) -/

/-- One step reduces both sums, whatever they were before. -/
theorem adlerStep_le (p : Word × Word) (d : Byte) :
    (adlerStep p d).1.toNat ≤ 65520 ∧ (adlerStep p d).2.toNat ≤ 65520 := by
  rw [adlerStep_snd_toNat, adlerStep_fst_toNat]
  exact ⟨Nat.le_of_lt_succ (Nat.mod_lt _ (by decide)), Nat.le_of_lt_succ (Nat.mod_lt _ (by decide))⟩

/-- Settles O11: the two sums as numbers (`adlerStep_fst_toNat`, `adlerStep_snd_toNat`), and `adlerStep_le`. -/
theorem adlerStepUsesNewLowSum : Obligations.AdlerStepUsesNewLowSum := by
  intro a b d _ _
  have hlow := adlerStep_fst_toNat (a, b) d
  have hhigh := adlerStep_snd_toNat (a, b) d
  rw [hlow] at hhigh
  exact ⟨hlow, hhigh, adlerStep_le (a, b) d⟩

/-! ### The fold and its value (41_adler32.md R141) -/

/-- Reduced sums stay reduced over every byte sequence. -/
theorem adlerFold_le {p : Word × Word} (h : p.1.toNat ≤ 65520 ∧ p.2.toNat ≤ 65520) (bs : List Byte) :
    (adlerFold p bs).1.toNat ≤ 65520 ∧ (adlerFold p bs).2.toNat ≤ 65520 := by
  induction bs generalizing p with
  | nil => exact h
  | cons d bs ih =>
    rw [adlerFold_cons]
    exact ih (adlerStep_le p d)

/-- The shift loses no bit of a reduced high sum, and the OR joins disjoint ranges of bits. -/
theorem toNat_adlerValue {p : Word × Word} (h : p.1.toNat ≤ 65520 ∧ p.2.toNat ≤ 65520) :
    (adlerValue p).toNat = p.2.toNat * 65536 + p.1.toNat := by
  obtain ⟨hlow, hhigh⟩ := h
  have hshift : (p.2 <<< 16).toNat = 2 ^ 16 * p.2.toNat := by
    rw [BitVec.toNat_shiftLeft, Nat.shiftLeft_eq, Nat.mul_comm, Nat.mod_eq_of_lt (by omega)]
  rw [adlerValue, BitVec.toNat_or, hshift, ← Nat.two_pow_add_eq_or_of_lt (by omega), Nat.mul_comm]

/-- `adler32` as a number, in the sums of the fold. -/
theorem toNat_adler32 (bs : List Byte) :
    (adler32 bs).toNat = (adlerFold (1, 0) bs).2.toNat * 65536 + (adlerFold (1, 0) bs).1.toNat :=
  toNat_adlerValue (adlerFold_le (by decide) bs)

/-- After one byte both sums are `1 + d`: no byte is large enough for the remainder to act. -/
theorem toNat_adler32_singleton (d : Byte) : (adler32 [d]).toNat = (1 + d.toNat) * 65536 + (1 + d.toNat) := by
  have hlow : (adlerStep (1, 0) d).1.toNat = 1 + d.toNat := by
    rw [adlerStep_fst_toNat]
    exact Nat.mod_eq_of_lt (show 1 + d.toNat < 65521 by omega)
  have hhigh : (adlerStep (1, 0) d).2.toNat = 1 + d.toNat := by
    rw [adlerStep_snd_toNat, hlow]
    exact (Nat.mod_eq_of_lt (show 0 + (1 + d.toNat) < 65521 by omega)).trans (Nat.zero_add _)
  rw [toNat_adler32, adlerFold_cons, adlerFold_nil, hlow, hhigh]

/-- Settles O14: `adlerFold_le` for the range of the sums, `toNat_adler32` and `toNat_adler32_singleton` for the
numbers. -/
theorem adlerValueJoinsTheSums : Obligations.AdlerValueJoinsTheSums := by
  refine ⟨fun bs => ?_, by decide, toNat_adler32_singleton⟩
  obtain ⟨hlow, hhigh⟩ := adlerFold_le (p := (1, 0)) (by decide) bs
  exact ⟨hlow, hhigh, rfl, toNat_adler32 bs⟩

/-! ### Sums reduced once per block (41_adler32.md R146) -/

/-- One byte added into the two sums with no remainder taken: an accumulator wide enough never to wrap. -/
def wideStep (p : Nat × Nat) (d : Byte) : Nat × Nat := (p.1 + d.toNat, p.2 + (p.1 + d.toNat))

/-- One step keeps the sums congruent to the wide ones. -/
theorem adlerStep_modEq {p : Word × Word} {w : Nat × Nat}
    (h : p.1.toNat ≡ w.1 [MOD 65521] ∧ p.2.toNat ≡ w.2 [MOD 65521]) (d : Byte) :
    (adlerStep p d).1.toNat ≡ (wideStep w d).1 [MOD 65521] ∧
      (adlerStep p d).2.toNat ≡ (wideStep w d).2 [MOD 65521] := by
  obtain ⟨hlow, hhigh⟩ := h
  have hnew : (adlerStep p d).1.toNat ≡ w.1 + d.toNat [MOD 65521] := by
    rw [adlerStep_fst_toNat]
    exact (Nat.mod_modEq _ _).trans (hlow.add_right _)
  refine ⟨hnew, ?_⟩
  rw [adlerStep_snd_toNat]
  exact (Nat.mod_modEq _ _).trans (hhigh.add hnew)

/-- So does a block, from any sums that are congruent at its start. -/
theorem adlerFold_modEq {p : Word × Word} {w : Nat × Nat}
    (h : p.1.toNat ≡ w.1 [MOD 65521] ∧ p.2.toNat ≡ w.2 [MOD 65521]) (bs : List Byte) :
    (adlerFold p bs).1.toNat ≡ (bs.foldl wideStep w).1 [MOD 65521] ∧
      (adlerFold p bs).2.toNat ≡ (bs.foldl wideStep w).2 [MOD 65521] := by
  induction bs generalizing p w with
  | nil => exact h
  | cons d bs ih =>
    rw [adlerFold_cons, List.foldl_cons]
    exact ih (adlerStep_modEq h d)

/-- From reduced sums, the per-byte sums at the end of a block are the remainders of the wide ones. -/
theorem adlerFold_eq_wide_mod {a b : Word} (h : a.toNat ≤ 65520 ∧ b.toNat ≤ 65520) (bs : List Byte) :
    (adlerFold (a, b) bs).1.toNat = (bs.foldl wideStep (a.toNat, b.toNat)).1 % 65521 ∧
      (adlerFold (a, b) bs).2.toNat = (bs.foldl wideStep (a.toNat, b.toNat)).2 % 65521 := by
  obtain ⟨hlow, hhigh⟩ := adlerFold_modEq (p := (a, b)) (w := (a.toNat, b.toNat)) ⟨rfl, rfl⟩ bs
  obtain ⟨hlow_le, hhigh_le⟩ := adlerFold_le (p := (a, b)) h bs
  exact ⟨(Nat.mod_eq_of_lt (Nat.lt_succ_of_le hlow_le)).symm.trans hlow,
    (Nat.mod_eq_of_lt (Nat.lt_succ_of_le hhigh_le)).symm.trans hhigh⟩

/-- Settles O15: the wide sums are congruent to the per-byte ones and those are reduced (`adlerFold_eq_wide_mod`). -/
theorem adlerBlockwiseSumsAgree : Obligations.AdlerBlockwiseSumsAgree := by
  intro a b bs ha hb
  refine ⟨fun _ => adlerFold_eq_wide_mod ⟨ha, hb⟩ bs, ?_⟩
  rintro rfl
  rfl

/-! ### The commands (41_adler32.md R142 to R145) -/

/-- The decoder's arms for the four opcodes of the family (30_encoding.md R101). -/
theorem encodedAs_adlerFamily :
    EncodedAs 0x20 0 (fun _ => .adlInit) ∧ EncodedAs 0x21 8 .adlUpd ∧ EncodedAs 0x22 0 (fun _ => .adlGet) ∧
      EncodedAs 0x23 0 (fun _ => .adler32) := by
  refine ⟨?_, ?_, ?_, ?_⟩
  all_goals
    refine encodedAs_of_arm (by decide) fun arg => ?_
    rw [decode, opcodeOf_commandWord, argumentOf_commandWord]
    rfl

/-- Settles O12: each of the three commands is one register update and `done`; the sums of `ADL.UPD` are those of
`adlerStep`, as R140 writes them. -/
theorem adlerPrimitiveCommands : Obligations.AdlerPrimitiveCommands := by
  obtain ⟨hinit, hupd, hget, -⟩ := encodedAs_adlerFamily
  exact ⟨⟨hinit, hupd, hget⟩, fun s => ⟨rfl, fun d => ⟨⟨_, _, rfl⟩, fun _ _ => rfl⟩, rfl⟩⟩

/-- Settles O13: the read loop is the fold over `IN` (`execAdler32_eq`), whatever `IN_LEN`. -/
theorem adlerOfInputBuffer : Obligations.AdlerOfInputBuffer := by
  obtain ⟨-, -, -, hadler32⟩ := encodedAs_adlerFamily
  exact ⟨hadler32, execAdler32_eq⟩

end Sys2Proof.Machine
end

section
/-! PROOFS. The writer (42_writer.md): the four commands that append bytes and fold them into the checksums (R161 to
R164), when the sink accepts every byte and when it refuses one. -/

namespace Sys2Proof.Machine

/-! ### A command that writes one byte -/

theorem Sink.accepts_one (k : Sink) : Sink.accepts 1 k = true ↔ k.answer = .accept := by
  rw [Sink.accepts_succ, Sink.accepts_zero, and_iff_left rfl]

theorem Sink.refusesAfter_zero (k : Sink) : Sink.refusesAfter 0 k = true ↔ k.answer = .refuse := by
  rw [Sink.refusesAfter_iff, Sink.accepts_zero, Sink.drop_zero, and_iff_right rfl]

section
variable {p : Progress} {s : State} {v : Byte} {c : Word} {q : Word × Word}

/-- `Writes.complete_accepted` for one byte, in the sink's next answer. -/
theorem Writes.complete_accepted_byte (h : Writes p s [v] c q) (ha : s.sink.answer = .accept) :
    complete p = .next { s with
      out := s.out ++ [v], sink := s.sink.rest, crc := c, a := q.1, b := q.2, status := 0 } := by
  rw [h.complete_accepted ((Sink.accepts_one _).mpr ha), List.length_singleton, Sink.drop_one]

/-- `Writes.complete_refused` for one byte, in the sink's next answer: nothing is appended. -/
theorem Writes.complete_refused_byte (h : Writes p s [v] c q) (hr : s.sink.answer = .refuse) :
    SinkFailed s [] (complete p) :=
  h.complete_refused Nat.zero_lt_one ((Sink.refusesAfter_zero _).mpr hr)

end

/-! ### The commands (42_writer.md R161 to R164) -/

/-- The decoder's arms for the four opcodes of the family (30_encoding.md R101). -/
theorem encodedAs_writerFamily :
    EncodedAs 0x30 8 .wrB ∧ EncodedAs 0x31 8 .wrD ∧ EncodedAs 0x32 16 .wrU16le ∧ EncodedAs 0x33 32 .wrU32be := by
  refine ⟨?_, ?_, ?_, ?_⟩
  all_goals
    refine encodedAs_of_arm (by decide) fun arg => ?_
    rw [decode, opcodeOf_commandWord, argumentOf_commandWord]
    rfl

/-- Settles O17: `WR.B` is one `PutC` (`writes_putC`), ended by the sink's one answer. -/
theorem writeByteCommand : Obligations.WriteByteCommand := by
  obtain ⟨hwrB, -, -, -⟩ := encodedAs_writerFamily
  refine ⟨hwrB, fun s v => ?_⟩
  have hw := writes_putC v s
  exact ⟨hw.complete_accepted_byte, hw.complete_refused_byte⟩

/-- Settles O18: `WR.D` is one `PutD` (`writes_putD`), whose sums are those of `adlerStep`. -/
theorem writeDataByteCommand : Obligations.WriteDataByteCommand := by
  obtain ⟨-, hwrD, -, -⟩ := encodedAs_writerFamily
  refine ⟨hwrD, fun s v => ?_⟩
  have hw := writes_putD v s
  exact ⟨fun ha => ⟨_, _, hw.complete_accepted_byte ha, fun _ _ => rfl⟩, hw.complete_refused_byte⟩

/-- Settles O19: `WR.U16LE` is a `PutC` of each byte of `le16(v)` (`writes_sequence_putC`). -/
theorem writeLittleEndianHalfword : Obligations.WriteLittleEndianHalfword := by
  obtain ⟨-, -, hwrU16le, -⟩ := encodedAs_writerFamily
  refine ⟨hwrU16le, fun s v => ?_⟩
  have hw := writes_sequence_putC (le16 v) s
  exact ⟨hw.complete_accepted, fun k hk hr => hw.complete_refused hk hr⟩

/-- Settles O20: `WR.U32BE` is a `PutC` of each byte of `be32(v)` (`writes_sequence_putC`). -/
theorem writeBigEndianWord : Obligations.WriteBigEndianWord := by
  obtain ⟨-, -, -, hwrU32be⟩ := encodedAs_writerFamily
  refine ⟨hwrU32be, fun s v => ?_⟩
  have hw := writes_sequence_putC (be32 v) s
  exact ⟨hw.complete_accepted, fun k hk hr => hw.complete_refused hk hr⟩

end Sys2Proof.Machine
end

section
/-! PROOFS. The chunk framer (43_chunk_framer.md): the chunk of the input buffer under any type (R181), the signature
(R182), the header chunk (R183, R184) and the end chunk (R185), when the sink accepts every byte and when it refuses
one. -/

namespace Sys2Proof.Machine

/-! ### The two ends of a command that writes (20_memory.md R54) -/

/-- Both ends of a command that writes `n` bytes: the sink accepts them all, or refuses the one after the first `k`. -/
theorem Writes.complete_ends {p : Progress} {s : State} {bs : List Byte} {c : Word} {q : Word × Word} {n : Nat}
    (h : Writes p s bs c q) (hn : bs.length = n) :
    (Sink.accepts n s.sink = true → complete p = .next { s with
      out := s.out ++ bs, sink := s.sink.drop n, crc := c, a := q.1, b := q.2, status := 0 }) ∧
    ∀ k, k < n → Sink.refusesAfter k s.sink = true → SinkFailed s (bs.take k) (complete p) := by
  subst hn
  exact ⟨h.complete_accepted, fun k => h.complete_refused⟩

/-! ### What a framing command appends (30_encoding.md R81 to R85) -/

/-- A chunk with type and payload taken together, the bytes its CRC covers. -/
theorem chunkBytes_eq_covered (tag : Word) (p : List Byte) :
    chunkBytes tag p = be32 (BitVec.ofNat 32 p.length) ++ (be32 tag ++ p) ++ be32 (crc32 (be32 tag ++ p)) := by
  rw [chunkBytes, List.append_assoc (be32 _) (be32 tag) p]

theorem length_chunkBytes_inBytes (tag : Word) (s : State) :
    (chunkBytes tag s.inBytes).length = 12 + s.inLen.toNat := by
  rw [length_chunkBytes, State.length_inBytes]

theorem be32_tagIHDR : be32 tagIHDR = [0x49, 0x48, 0x44, 0x52] := by decide

/-- The header chunk with the bytes of its length and type written out (30_encoding.md R83). -/
theorem chunkBytes_ihdr (w h : Word) (f : Flag) :
    chunkBytes tagIHDR (ihdrPayload w h f) = [0x00, 0x00, 0x00, 0x0D] ++ ([0x49, 0x48, 0x44, 0x52] ++ ihdrPayload w h f)
      ++ be32 (crc32 ([0x49, 0x48, 0x44, 0x52] ++ ihdrPayload w h f)) := by
  have hlen : be32 (BitVec.ofNat 32 13) = [0x00, 0x00, 0x00, 0x0D] := by decide
  rw [chunkBytes_eq_covered, length_ihdrPayload, hlen, be32_tagIHDR]

theorem length_chunkBytes_ihdr (w h : Word) (f : Flag) : (chunkBytes tagIHDR (ihdrPayload w h f)).length = 25 := by
  rw [length_chunkBytes, length_ihdrPayload]

/-- The end chunk as its twelve constant bytes (30_encoding.md R85). -/
theorem chunkBytes_iend :
    chunkBytes tagIEND [] = [0x00, 0x00, 0x00, 0x00, 0x49, 0x45, 0x4E, 0x44, 0xAE, 0x42, 0x60, 0x82] := by decide

/-- The un-inverted register after the type of the end chunk (43_chunk_framer.md R185). -/
theorem crcFold_tagIEND : crcFold crcInit (be32 tagIEND) = 0x51BD9F7D := by decide

/-! ### The pre-checks (60_exceptions.md R271, R275) -/

theorem payloadError_of_gt {s : State} (h : s.inLen.toNat > s.cfg.maxChunkLen.toNat) :
    payloadError s = some .chunkTooLarge :=
  if_pos h

theorem payloadError_of_le {s : State} (h : s.inLen.toNat ≤ s.cfg.maxChunkLen.toNat) : payloadError s = none :=
  if_neg (Nat.not_lt.mpr h)

theorem dimensionError_of_zero {s : State} (h : s.width = 0 ∨ s.height = 0) :
    dimensionError s = some .invalidDimensions :=
  if_pos h

theorem dimensionError_of_ne_zero {s : State} (hw : s.width ≠ 0) (hh : s.height ≠ 0) : dimensionError s = none :=
  if_neg (not_or.mpr ⟨hw, hh⟩)

/-! ### The commands (43_chunk_framer.md R181 to R185) -/

/-- The decoder's arms for the four opcodes of the family (30_encoding.md R101). -/
theorem encodedAs_framerFamily :
    EncodedAs 0x40 32 .chunk ∧ EncodedAs 0x41 0 (fun _ => .sig) ∧ EncodedAs 0x42 0 (fun _ => .ihdr) ∧
      EncodedAs 0x44 0 (fun _ => .iend) := by
  refine ⟨?_, ?_, ?_, ?_⟩
  all_goals
    refine encodedAs_of_arm (by decide) fun arg => ?_
    rw [decode, opcodeOf_commandWord, argumentOf_commandWord]
    rfl

/-- Settles O21: past the length check `CHUNK` writes one chunk of `IN` (`writes_chunkBody`), whatever the type. -/
theorem chunkFramesTheInputBuffer : Obligations.ChunkFramesTheInputBuffer := by
  obtain ⟨hchunk, -, -, -⟩ := encodedAs_framerFamily
  refine ⟨hchunk, fun s tag => ⟨fun hgt => ?_, fun hle => ?_⟩⟩
  · have he : commandError (.chunk tag) s = some .chunkTooLarge := payloadError_of_gt hgt
    exact exec_of_commandError he
  · have hx : exec (.chunk tag) s = complete (chunkBody tag s) := complete_checked_none (payloadError_of_le hle) _ s
    have hends := (writes_chunkBody tag s).complete_ends (length_chunkBytes_inBytes tag s)
    rw [chunkBytes_eq_covered, State.length_inBytes] at hends
    exact hx ▸ hends

/-- Settles O22: `SIG` only emits (`writes_sequence_emit`), so the sums it leaves are those it found. -/
theorem signatureIsNotFolded : Obligations.SignatureIsNotFolded := by
  obtain ⟨-, hsig, -, -⟩ := encodedAs_framerFamily
  exact ⟨hsig, fun s => (writes_sequence_emit signature s).complete_ends length_signature⟩

/-- Settles O23: past the dimension check `IHDR` writes the chunk of `ihdr_payload` (`writes_ihdrBody`), of which `IN`
is no part. -/
theorem headerChunkFromRegisters : Obligations.HeaderChunkFromRegisters := by
  obtain ⟨-, -, hihdr, -⟩ := encodedAs_framerFamily
  refine ⟨hihdr, fun s => ⟨fun hz => ?_, fun hw hh => ?_⟩⟩
  · have he : commandError .ihdr s = some .invalidDimensions := dimensionError_of_zero hz
    exact exec_of_commandError he
  · have hx : exec .ihdr s = complete (ihdrBody s) := complete_checked_none (dimensionError_of_ne_zero hw hh) _ s
    have hends := (writes_ihdrBody s).complete_ends (length_chunkBytes_ihdr _ _ _)
    rw [chunkBytes_ihdr, be32_tagIHDR] at hends
    exact hx ▸ hends

/-- Settles O24: the chunk of the empty payload (`writes_iendBody`) and the register it leaves are constants
(`chunkBytes_iend`, `crcFold_tagIEND`). -/
theorem endChunkIsConstant : Obligations.EndChunkIsConstant := by
  obtain ⟨-, -, -, hiend⟩ := encodedAs_framerFamily
  refine ⟨hiend, fun s => ?_⟩
  have hends := (writes_iendBody s).complete_ends (length_chunkBytes tagIEND [])
  rw [chunkBytes_iend, crcFold_tagIEND] at hends
  obtain ⟨haccepted, hrefused⟩ := hends
  exact ⟨haccepted, hrefused, by decide⟩

end Sys2Proof.Machine
end

section
/-! PROOFS. The IDAT builder (44_idat_deflate.md): the length of the payload (R202), the pre-checks of `IDAT` and
`ENCODE` in their order (R209), and the streamed chunk (R210). -/

namespace Sys2Proof.Machine

/-! ### The length of the payload (44_idat_deflate.md R202, 30_encoding.md R92) -/

/-- `idat_len` with the six bytes each row has beside its pixels counted together (30_encoding.md R92). -/
theorem idatLen_eq_rows (w h : Word) (f : Flag) : idatLen w h f = 6 + h.toNat * (rowBytes w f + 6) := by
  have hrow : 5 + rowStride w f = rowBytes w f + 6 := by rw [rowStride]; omega
  rw [idatLen, hrow]
  omega

theorem length_chunkBytes_idat {w h : Word} {f : Flag} {pix : List Byte} (hp : pix.length = expectLen w h f) :
    (chunkBytes tagIDAT (idatPayload w h f pix)).length = 12 + idatLen w h f := by
  rw [length_chunkBytes, length_idatPayload hp]

/-- Settles O29: `length_idatPayload` is the length R202 gives, `idatLen_eq_rows` the form of R92. -/
theorem idatLengthIsExact : Obligations.IdatLengthIsExact := fun w h f _ hp =>
  ⟨length_idatPayload hp, (length_idatPayload hp).trans (idatLen_eq_rows w h f), length_chunkBytes_idat hp⟩

/-! ### The pre-checks (44_idat_deflate.md R209, 45_encode_driver.md R232) -/

section
variable {s : State}

theorem imageError_of_zero (h : s.width = 0 ∨ s.height = 0) : imageError s = some .invalidDimensions :=
  if_pos h

variable (hw : s.width ≠ 0) (hh : s.height ≠ 0)
include hw hh

theorem imageError_of_length_ne (hl : s.inLen.toNat ≠ expectLen s.width s.height s.alpha) :
    imageError s = some .bufferSizeMismatch := by
  rw [imageError, if_neg (not_or.mpr ⟨hw, hh⟩), if_pos hl]

variable (hl : s.inLen.toNat = expectLen s.width s.height s.alpha)
include hl

theorem imageError_of_wide_row (hr : rowStride s.width s.alpha > maxRowStride) :
    imageError s = some .rowTooLarge := by
  rw [imageError, if_neg (not_or.mpr ⟨hw, hh⟩), if_neg (not_not.mpr hl), if_pos hr]

theorem imageError_of_long_payload (hr : rowStride s.width s.alpha ≤ maxRowStride)
    (hn : idatLen s.width s.height s.alpha > s.cfg.maxChunkLen.toNat) : imageError s = some .chunkTooLarge := by
  rw [imageError, if_neg (not_or.mpr ⟨hw, hh⟩), if_neg (not_not.mpr hl), if_neg (Nat.not_lt.mpr hr), if_pos hn]

end

/-- Both image commands stop at the first pre-check that fails, and change `STATUS` alone. -/
theorem exec_of_imageError {i : Instr} {s : State} {e : ErrorKind} (hi : i = .idat ∨ i = .encode)
    (he : imageError s = some e) : exec i s = .next { s with status := e.code } := by
  have hce : commandError i s = some e := by rcases hi with rfl | rfl <;> exact he
  exact exec_of_commandError hce

/-- The largest width of each format whose row fits a stored block (44_idat_deflate.md R209). -/
theorem rowStride_le_iff (w : Word) :
    (rowStride w 0 ≤ 65535 ↔ w.toNat ≤ 21844) ∧ (rowStride w 1 ≤ 65535 ↔ w.toNat ≤ 16383) := by
  have hrgb : rowStride w 0 = w.toNat * 3 + 1 := rfl
  have hrgba : rowStride w 1 = w.toNat * 4 + 1 := rfl
  omega

/-- Settles O27: one lemma per clause of `imageError`, and `exec_of_imageError` for what each does. -/
theorem imagePreChecksInOrder : Obligations.ImagePreChecksInOrder :=
  ⟨rowStride_le_iff, fun _ _ hi =>
    ⟨fun hz => exec_of_imageError hi (imageError_of_zero hz),
      fun hw hh hl => exec_of_imageError hi (imageError_of_length_ne hw hh hl),
      fun hw hh hl hr => exec_of_imageError hi (imageError_of_wide_row hw hh hl hr),
      fun hw hh hl hr hn => exec_of_imageError hi (imageError_of_long_payload hw hh hl hr hn)⟩⟩

/-! ### The streamed chunk (44_idat_deflate.md R206, R210) -/

/-- The decoder's arm for the opcode (30_encoding.md R101). -/
theorem encodedAs_idat : EncodedAs 0x43 0 (fun _ => .idat) := by
  refine encodedAs_of_arm (by decide) fun arg => ?_
  rw [decode, opcodeOf_commandWord, argumentOf_commandWord]
  rfl

theorem be32_tagIDAT : be32 tagIDAT = [0x49, 0x44, 0x41, 0x54] := by decide

/-- Settles O26: past the pre-checks `IDAT` writes the chunk of `idat_payload` (`writes_idatBody`), of the length that
R202 gives. -/
theorem idatStreamsThePayloadChunk : Obligations.IdatStreamsThePayloadChunk := by
  refine ⟨encodedAs_idat, fun s => ⟨fun e he => exec_of_imageError (.inl rfl) he, fun hn => ?_⟩⟩
  have hl := inLen_eq_expectLen hn
  have hp : s.inBytes.length = expectLen s.width s.height s.alpha := by rw [State.length_inBytes, hl]
  have hx : exec .idat s = complete (idatBody s) := complete_checked_none hn _ s
  have hends := (writes_idatBody s hl).complete_ends (length_chunkBytes_idat hp)
  rw [chunkBytes_eq_covered, length_idatPayload hp, be32_tagIDAT] at hends
  exact ⟨length_idatPayload hp, hx ▸ hends⟩

end Sys2Proof.Machine
end

section
/-! PROOFS. The encoder driver (45_encode_driver.md): the whole file of one `ENCODE` (R231), and the four commands that
write it in parts (R233). -/

namespace Sys2Proof.Machine

/-! ### The whole file (45_encode_driver.md R231) -/

/-- The decoder's arm for the opcode (30_encoding.md R101). -/
theorem encodedAs_encode : EncodedAs 0x45 0 (fun _ => .encode) := by
  refine encodedAs_of_arm (by decide) fun arg => ?_
  rw [decode, opcodeOf_commandWord, argumentOf_commandWord]
  rfl

theorem length_pngFile_inBytes {s : State} (hn : imageError s = none) :
    (pngFile s.width s.height s.alpha s.inBytes).length = 63 + s.height.toNat * (5 + rowStride s.width s.alpha) :=
  length_pngFile (by rw [State.length_inBytes, inLen_eq_expectLen hn])

/-- Settles O31: past the pre-checks `ENCODE` writes `pngFile` (`writes_encodeBody`). -/
theorem encodeWritesThePngFile : Obligations.EncodeWritesThePngFile := by
  refine ⟨encodedAs_encode, fun s => ⟨fun e he => exec_of_imageError (.inr rfl) he, fun hn => ?_⟩⟩
  have hlen := length_pngFile_inBytes hn
  have hx : exec .encode s = complete (encodeBody s) := complete_checked_none hn _ s
  have hends := (writes_encodeBody s (inLen_eq_expectLen hn)).complete_ends hlen
  exact ⟨hlen, hx ▸ hends⟩

/-! ### Commands issued one after another -/

theorem Sink.accepts_of_le {m n : Nat} {k : Sink} (hmn : m ≤ n) (h : Sink.accepts n k = true) :
    Sink.accepts m k = true := by
  obtain ⟨d, rfl⟩ := Nat.exists_eq_add_of_le hmn
  exact ((Sink.accepts_add m d k).mp h).1

theorem core_run_one {s t : State} (h : step s = .next t) : Sys2Proof.core.run 1 s = .next t :=
  core_run_next 0 s t h

/-- A step carries out the first of the commands the host issues. -/
theorem step_issued {s : State} {i : Instr} {is : List Instr} {es : List HostEvent}
    (hs : s.host = issueAll (i :: is) ++ es) : step s = exec i (s.setHost (issueAll is ++ es)) :=
  (step_event hs).trans (runCommand_ok (decode_encodeWord i) _)

/-- `s` after commands that together appended `bs` and left `c`, `q` in the sums, the last with `STATUS` `OK`, when the
host has `es` still to do. -/
def State.afterWriting (s : State) (es : List HostEvent) (bs : List Byte) (c : Word) (q : Word × Word) : State :=
  ((s.setHost es).wrote bs bs.length c q).done

section
variable (s : State) (es fs : List HostEvent) (bs cs : List Byte) (c d : Word) (q r : Word × Word)

@[simp] theorem afterWriting_width : (s.afterWriting es bs c q).width = s.width := rfl
@[simp] theorem afterWriting_height : (s.afterWriting es bs c q).height = s.height := rfl
@[simp] theorem afterWriting_alpha : (s.afterWriting es bs c q).alpha = s.alpha := rfl
@[simp] theorem afterWriting_inBytes : (s.afterWriting es bs c q).inBytes = s.inBytes := rfl
@[simp] theorem afterWriting_sums : ((s.afterWriting es bs c q).a, (s.afterWriting es bs c q).b) = q := rfl
@[simp] theorem afterWriting_host : (s.afterWriting es bs c q).host = es := rfl
@[simp] theorem afterWriting_setHost : (s.afterWriting es bs c q).setHost fs = s.afterWriting fs bs c q := rfl

/-- Bytes written later follow those written before, and the last command's `STATUS` stands. -/
theorem afterWriting_afterWriting :
    (s.afterWriting es bs c q).afterWriting fs cs d r = s.afterWriting fs (bs ++ cs) d r := by
  have hstatus : (s.afterWriting es bs c q).afterWriting fs cs d r =
      (((s.setHost fs).wrote bs bs.length c q).wrote cs cs.length d r).done := rfl
  rw [hstatus, wrote_wrote, ← List.length_append, State.afterWriting]

/-- No command's pre-checks read what writing changes. -/
theorem commandError_afterWriting (i : Instr) : commandError i (s.afterWriting es bs c q) = commandError i s := by
  cases i <;> rfl

end

section
variable {s : State} {i : Instr} {is : List Instr} {es : List HostEvent} {p : Progress} {bs cs : List Byte}
  {c d : Word} {q r : Word × Word}

/-- One issued command that writes, all of its bytes accepted. -/
theorem step_issued_writes (hs : s.host = issueAll (i :: is) ++ es)
    (hx : exec i (s.setHost (issueAll is ++ es)) = complete p) (hw : Writes p (s.setHost (issueAll is ++ es)) bs c q)
    (ha : Sink.accepts bs.length s.sink = true) :
    step s = .next (s.afterWriting (issueAll is ++ es) bs c q) := by
  rw [step_issued hs, hx, hw.accepted ha, complete_going]
  rfl

/-- The same after earlier writes: the bytes follow those already appended. -/
theorem step_afterWriting (hx : exec i (s.afterWriting (issueAll is ++ es) bs c q) = complete p)
    (hw : Writes p (s.afterWriting (issueAll is ++ es) bs c q) cs d r)
    (ha : Sink.accepts (bs ++ cs).length s.sink = true) :
    step (s.afterWriting (issueAll (i :: is) ++ es) bs c q) =
      .next (s.afterWriting (issueAll is ++ es) (bs ++ cs) d r) := by
  rw [List.length_append, Sink.accepts_add] at ha
  obtain ⟨_, hcs⟩ := ha
  rw [← afterWriting_afterWriting s (issueAll (i :: is) ++ es)]
  exact step_issued_writes rfl hx hw hcs

/-- A command that a pre-check stops after earlier writes: `STATUS` alone changes, and the bytes already
written stay. -/
theorem step_afterWriting_error {e : ErrorKind} (he : commandError i s = some e) :
    step (s.afterWriting (issueAll (i :: is) ++ es) bs c q) =
      .next ((s.afterWriting (issueAll is ++ es) bs c q).setStatus e.code) := by
  rw [step_issued (afterWriting_host ..), afterWriting_setHost]
  exact exec_of_commandError ((commandError_afterWriting ..).trans he)

end

/-! ### `SIG`, `IHDR`, `IDAT`, `IEND` (45_encode_driver.md R233) -/

section
variable {s : State} {is : List Instr} {es : List HostEvent} {bs : List Byte} {c : Word} {q : Word × Word}

theorem step_sig (hs : s.host = issueAll (.sig :: is) ++ es) (ha : Sink.accepts signature.length s.sink = true) :
    step s = .next (s.afterWriting (issueAll is ++ es) signature s.crc (s.a, s.b)) :=
  step_issued_writes hs rfl (writes_sequence_emit signature _) ha

theorem step_ihdr (hd : dimensionError s = none)
    (ha : Sink.accepts (bs ++ chunkBytes tagIHDR (ihdrPayload s.width s.height s.alpha)).length s.sink = true) :
    step (s.afterWriting (issueAll (.ihdr :: is) ++ es) bs c q) = .next (s.afterWriting (issueAll is ++ es)
      (bs ++ chunkBytes tagIHDR (ihdrPayload s.width s.height s.alpha))
      (crcFold crcInit (be32 tagIHDR ++ ihdrPayload s.width s.height s.alpha)) q) := by
  have hd' := (commandError_afterWriting s (issueAll is ++ es) bs c q .ihdr).trans hd
  have hw := writes_ihdrBody (s.afterWriting (issueAll is ++ es) bs c q)
  simp only [afterWriting_width, afterWriting_height, afterWriting_alpha, afterWriting_sums] at hw
  exact step_afterWriting (complete_checked_none hd' _ _) hw ha

theorem step_idat (hn : imageError s = none)
    (ha : Sink.accepts (bs ++ chunkBytes tagIDAT (idatPayload s.width s.height s.alpha s.inBytes)).length s.sink =
      true) :
    step (s.afterWriting (issueAll (.idat :: is) ++ es) bs c q) = .next (s.afterWriting (issueAll is ++ es)
      (bs ++ chunkBytes tagIDAT (idatPayload s.width s.height s.alpha s.inBytes))
      (crcFold crcInit (be32 tagIDAT ++ idatPayload s.width s.height s.alpha s.inBytes))
      (adlerFold (adlerInitA, adlerInitB) (uncompressed s.width s.height s.alpha s.inBytes))) := by
  have hn' := (commandError_afterWriting s (issueAll is ++ es) bs c q .idat).trans hn
  have hw := writes_idatBody _ (inLen_eq_expectLen hn')
  simp only [afterWriting_width, afterWriting_height, afterWriting_alpha, afterWriting_inBytes] at hw
  exact step_afterWriting (complete_checked_none hn' _ _) hw ha

theorem step_iend (ha : Sink.accepts (bs ++ chunkBytes tagIEND []).length s.sink = true) :
    step (s.afterWriting (issueAll (.iend :: is) ++ es) bs c q) =
      .next (s.afterWriting (issueAll is ++ es) (bs ++ chunkBytes tagIEND []) 0x51BD9F7D q) :=
  step_afterWriting rfl (crcFold_tagIEND ▸ writes_iendBody _) ha

/-- The header of the file: what `SIG` and `IHDR` write when no dimension is zero. -/
theorem run_sig_ihdr (n : Nat) (hs : s.host = issueAll (.sig :: .ihdr :: is) ++ es) (hd : dimensionError s = none)
    (ha : Sink.accepts (signature ++ chunkBytes tagIHDR (ihdrPayload s.width s.height s.alpha)).length s.sink = true) :
    Sys2Proof.core.run (n + 2) s = Sys2Proof.core.run n (s.afterWriting (issueAll is ++ es)
      (signature ++ chunkBytes tagIHDR (ihdrPayload s.width s.height s.alpha))
      (crcFold crcInit (be32 tagIHDR ++ ihdrPayload s.width s.height s.alpha)) (s.a, s.b)) := by
  have hsig : Sink.accepts signature.length s.sink = true :=
    Sink.accepts_of_le (List.prefix_append _ _).length_le ha
  rw [core_run_next _ _ _ (step_sig hs hsig), core_run_next _ _ _ (step_ihdr hd ha)]

/-- The four commands write the file in parts and leave the sums of the last parts that set them. -/
theorem run_four_commands (hs : s.host = issueAll [.sig, .ihdr, .idat, .iend] ++ es) (hn : imageError s = none)
    (ha : Sink.accepts (pngFile s.width s.height s.alpha s.inBytes).length s.sink = true) :
    Sys2Proof.core.run 4 s = .next (s.afterWriting es (pngFile s.width s.height s.alpha s.inBytes) 0x51BD9F7D
      (adlerFold (adlerInitA, adlerInitB) (uncompressed s.width s.height s.alpha s.inBytes))) := by
  obtain ⟨hw, hh, _, _, _⟩ := image_facts hn
  rw [pngFile] at ha ⊢
  have hidat := Sink.accepts_of_le (List.prefix_append _ _).length_le ha
  have hihdr := Sink.accepts_of_le (List.prefix_append _ _).length_le hidat
  rw [run_sig_ihdr 2 hs (dimensionError_of_ne_zero hw hh) hihdr, core_run_next _ _ _ (step_idat hn hidat)]
  exact core_run_one (step_iend ha)

theorem step_encode (hs : s.host = issueAll [.encode] ++ es) (hn : imageError s = none)
    (ha : Sink.accepts (pngFile s.width s.height s.alpha s.inBytes).length s.sink = true) :
    step s = .next (s.afterWriting es (pngFile s.width s.height s.alpha s.inBytes) 0x51BD9F7D
      (adlerFold (adlerInitA, adlerInitB) (uncompressed s.width s.height s.alpha s.inBytes))) :=
  step_issued_writes (is := []) hs (complete_checked_none hn _ _) (writes_encodeBody _ (inLen_eq_expectLen hn)) ha

end

/-- Settles O33: four steps and one end in the same `afterWriting` (`run_four_commands`, `step_encode`); the check of
`IHDR` fails after `SIG` (`step_sig`), the others after `IHDR` (`run_sig_ihdr`), and no write changes what they read. -/
theorem fourCommandsEqualEncode : Obligations.FourCommandsEqualEncode := by
  intro s es hs
  refine ⟨fun hn ha => ?_, fun hz ha => ?_, fun e he hw hh ha => ?_⟩
  · rw [← length_pngFile_inBytes hn] at ha
    exact ⟨_, run_four_commands hs hn ha, step_encode rfl hn ha⟩
  · have hd : commandError .ihdr s = some .invalidDimensions := dimensionError_of_zero hz
    have hrun := (core_run_next 1 _ _ (step_sig hs ha)).trans (core_run_one (step_afterWriting_error hd))
    exact ⟨_, hrun, rfl, rfl, exec_of_imageError (.inr rfl) (imageError_of_zero hz)⟩
  · have hi : commandError .idat s = some e := he
    have hrun := (run_sig_ihdr 1 hs (dimensionError_of_ne_zero hw hh) ha).trans
      (core_run_one (step_afterWriting_error hi))
    exact ⟨_, hrun, rfl, (List.append_assoc ..).symm, exec_of_imageError (.inr rfl) he⟩

end Sys2Proof.Machine
end

section
/-! PROOFS. The configuration commands (46_config_system.md): `SET.W`, `SET.H`, `SET.A` (R250 to R252) and `CLR`
(R253). -/

namespace Sys2Proof.Machine

/-- The decoder's arms for the four opcodes of the family (30_encoding.md R101). -/
theorem encodedAs_configFamily :
    EncodedAs 0x01 0 (fun _ => .clr) ∧ EncodedAs 0x02 32 .setW ∧ EncodedAs 0x03 32 .setH ∧
      EncodedAs 0x04 1 .setA := by
  refine ⟨?_, ?_, ?_, ?_⟩
  all_goals
    refine encodedAs_of_arm (by decide) fun arg => ?_
    rw [decode, opcodeOf_commandWord, argumentOf_commandWord]
    rfl

/-- What `ALPHA` selects (10_state.md R27, 46_config_system.md R252). -/
theorem channels_colorType_of_alpha : channels 0 = 3 ∧ colorType 0 = 2 ∧ channels 1 = 4 ∧ colorType 1 = 6 := by
  decide

/-- Settles O1: each of the three commands is one register update and `done`. -/
theorem setCommandsStoreAnyValue : Obligations.SetCommandsStoreAnyValue := by
  obtain ⟨-, hsetW, hsetH, hsetA⟩ := encodedAs_configFamily
  exact ⟨⟨hsetW, hsetH, hsetA⟩, channels_colorType_of_alpha, fun s => ⟨fun w => rfl, fun h => rfl, fun f => rfl⟩⟩

/-- `CLR` (46_config_system.md R253). -/
theorem exec_clr (s : State) : exec .clr s = .next s.resetRegisters.done := rfl

/-- Settles O2: `CLR` is `resetRegisters` (`exec_clr`), which leaves the dimensions 0, so the first pre-check of `ENCODE`
fails (`imageError_of_zero`). -/
theorem clrRestoresEveryRegister : Obligations.ClrRestoresEveryRegister := by
  obtain ⟨hclr, -⟩ := encodedAs_configFamily
  refine ⟨hclr, fun s => ⟨s.resetRegisters.done, exec_clr s, rfl, ?_⟩⟩
  have hw : s.resetRegisters.done.width = 0 := by simp
  exact exec_of_imageError (.inr rfl) (imageError_of_zero (.inl hw))

end Sys2Proof.Machine
end

section
/-! PROOFS. Every command from start to end: the three states it can end in (20_memory.md R54, 60_exceptions.md R278),
and what no command changes (10_state.md R20). -/

namespace Sys2Proof.Machine

/-! ### The three ends of a command -/

/-- Where a command that no error stops ends, before its `done`: each register at the value the command's rule gives it,
and the bytes of `commandOutput` in `OUT`. -/
def completedState : Instr → State → State
  | .clr, s => s.resetRegisters
  | .setW w, s => s.setWidth w
  | .setH h, s => s.setHeight h
  | .setA f, s => s.setAlpha f
  | .crcInit, s => s.setCrc crcInit
  | .crcUpd d, s => s.foldCrc d
  | .crcGet, s => s.deliverCrc
  | .crc32, s => (s.setCrc (crcFold crcInit s.inBytes)).deliverCrc
  | .adlInit, s => s.initAdler
  | .adlUpd d, s => s.foldAdler d
  | .adlGet, s => s.deliverAdler
  | .adler32, s => (s.setAdler (adlerFold (adlerInitA, adlerInitB) s.inBytes)).deliverAdler
  | .wrB v, s => s.wrote [v] 1 (crcStep s.crc v) (s.a, s.b)
  | .wrD v, s => s.wrote [v] 1 (crcStep s.crc v) (adlerStep (s.a, s.b) v)
  | .wrU16le v, s => s.wrote (le16 v) 2 (crcFold s.crc (le16 v)) (s.a, s.b)
  | .wrU32be v, s => s.wrote (be32 v) 4 (crcFold s.crc (be32 v)) (s.a, s.b)
  | .chunk tag, s =>
    let chunk := chunkBytes tag s.inBytes
    s.wrote chunk chunk.length (crcFold crcInit (be32 tag ++ s.inBytes)) (s.a, s.b)
  | .sig, s => s.wrote signature 8 s.crc (s.a, s.b)
  | .ihdr, s =>
    let payload := ihdrPayload s.width s.height s.alpha
    let chunk := chunkBytes tagIHDR payload
    s.wrote chunk chunk.length (crcFold crcInit (be32 tagIHDR ++ payload)) (s.a, s.b)
  | .idat, s =>
    let payload := idatPayload s.width s.height s.alpha s.inBytes
    let chunk := chunkBytes tagIDAT payload
    s.wrote chunk chunk.length (crcFold crcInit (be32 tagIDAT ++ payload))
      (adlerFold (adlerInitA, adlerInitB) (uncompressed s.width s.height s.alpha s.inBytes))
  | .iend, s =>
    let chunk := chunkBytes tagIEND []
    s.wrote chunk chunk.length (crcFold crcInit (be32 tagIEND)) (s.a, s.b)
  | .encode, s =>
    let file := pngFile s.width s.height s.alpha s.inBytes
    s.wrote file file.length 0x51BD9F7D
      (adlerFold (adlerInitA, adlerInitB) (uncompressed s.width s.height s.alpha s.inBytes))

/-- The state `t` is an end of the command `i` from `s`: a pre-check stopped it, it completed, or the sink refused the
byte after the first `k`. -/
inductive EndsIn (i : Instr) (s : State) : State → Prop
  | rejected {e : ErrorKind} (he : commandError i s = some e) : EndsIn i s (s.setStatus e.code)
  | completed (hn : commandError i s = none) (ha : Sink.accepts (commandOutput i s).length s.sink = true) :
      EndsIn i s (completedState i s).done
  | failed {k : Nat} (hn : commandError i s = none) (hk : k < (commandOutput i s).length)
      (hr : Sink.refusesAfter k s.sink = true) :
      EndsIn i s ((s.wrote ((commandOutput i s).take k) (k + 1) s.crc (s.a, s.b)).raise .sinkWriteFailure)

/-- A command that changes registers alone completes. -/
theorem endsIn_of_registersOnly {i : Instr} {s : State} (hn : commandError i s = none) (ho : commandOutput i s = [])
    (hx : exec i s = .next (completedState i s).done) : ∃ t, exec i s = .next t ∧ EndsIn i s t :=
  ⟨_, hx, .completed hn (by rw [ho]; rfl)⟩

/-- A command whose body writes `commandOutput` and leaves the sums of `completedState` completes or fails. -/
theorem Writes.endsIn {i : Instr} {s : State} {p : Progress} {c : Word} {q : Word × Word}
    (hn : commandError i s = none) (hx : exec i s = complete p) (hw : Writes p s (commandOutput i s) c q)
    (hc : completedState i s = s.wrote (commandOutput i s) (commandOutput i s).length c q) :
    ∃ t, exec i s = .next t ∧ EndsIn i s t := by
  rcases hw.complete_cases with ⟨ha, e⟩ | ⟨k, hk, hr, e⟩
  · exact ⟨_, hx.trans (hc ▸ e), .completed hn ha⟩
  · exact ⟨_, hx.trans e, .failed hn hk hr⟩

/-- Everything a command can do, with the whole state it ends in. -/
theorem exec_ends (i : Instr) (s : State) : ∃ t, exec i s = .next t ∧ EndsIn i s t := by
  cases h : commandError i s with
  | some e => exact ⟨_, exec_of_commandError h, .rejected h⟩
  | none =>
    cases i with
    | clr | setW | setH | setA | crcInit | crcUpd | crcGet | adlInit | adlUpd | adlGet =>
      exact endsIn_of_registersOnly h rfl rfl
    | crc32 => exact endsIn_of_registersOnly h rfl (execCrc32_eq s)
    | adler32 => exact endsIn_of_registersOnly h rfl (execAdler32_eq s)
    | wrB v => exact (writes_putC v s).endsIn h rfl rfl
    | wrD v => exact (writes_putD v s).endsIn h rfl rfl
    | wrU16le v => exact (writes_sequence_putC (le16 v) s).endsIn h rfl rfl
    | wrU32be v => exact (writes_sequence_putC (be32 v) s).endsIn h rfl rfl
    | chunk tag => exact (writes_chunkBody tag s).endsIn h (complete_checked_none h _ s) rfl
    | sig => exact (writes_sequence_emit signature s).endsIn h rfl rfl
    | ihdr => exact (writes_ihdrBody s).endsIn h (complete_checked_none h _ s) rfl
    | idat => exact (writes_idatBody s (inLen_eq_expectLen h)).endsIn h (complete_checked_none h _ s) rfl
    | iend => exact (writes_iendBody s).endsIn h rfl rfl
    | encode => exact (writes_encodeBody s (inLen_eq_expectLen h)).endsIn h (complete_checked_none h _ s) rfl

/-! ### What no command changes (10_state.md R20) -/

/-- `IN`, `IN_LEN`, the parameters and the host's coming actions are as before, and `OUT` has at most grown. -/
structure KeepsSurroundings (s t : State) : Prop where
  input : t.input = s.input
  inLen : t.inLen = s.inLen
  cfg : t.cfg = s.cfg
  host : t.host = s.host
  out : ∃ bs, t.out = s.out ++ bs

theorem completedState_out (i : Instr) (s : State) : (completedState i s).out = s.out ++ commandOutput i s := by
  cases i with
  | clr | setW | setH | setA | crcInit | crcUpd | crcGet | crc32 | adlInit | adlUpd | adlGet | adler32 =>
    exact (List.append_nil s.out).symm
  | wrB | wrD | wrU16le | wrU32be | chunk | sig | ihdr | idat | iend | encode => rfl

theorem completedState_keepsSurroundings (i : Instr) (s : State) : KeepsSurroundings s (completedState i s) where
  input := by cases i <;> rfl
  inLen := by cases i <;> rfl
  cfg := by cases i <;> rfl
  host := by cases i <;> rfl
  out := ⟨_, completedState_out i s⟩

theorem EndsIn.keepsSurroundings {i : Instr} {s t : State} (h : EndsIn i s t) : KeepsSurroundings s t := by
  cases h with
  | rejected he => exact ⟨rfl, rfl, rfl, rfl, [], (List.append_nil _).symm⟩
  | completed hn ha =>
    obtain ⟨hin, hlen, hcfg, hhost, hout⟩ := completedState_keepsSurroundings i s
    exact ⟨hin, hlen, hcfg, hhost, hout⟩
  | failed hn hk hr => exact ⟨rfl, rfl, rfl, rfl, _, rfl⟩

theorem KeepsSurroundings.readIn {s t : State} (h : KeepsSurroundings s t) (off : Nat) :
    t.readIn off = s.readIn off := by
  rw [State.readIn, State.readIn, h.input, h.inLen]

end Sys2Proof.Machine
end

section
/-! PROOFS. What holds of every step: the invariant it keeps (10_state.md R24, 20_memory.md R50), that no command reads
beyond `IN_LEN` (R52), and that `OUT` only grows (10_state.md R31). -/

namespace Sys2Proof.Machine

/-! ### Every action of the host -/

/-- A command word, legal or not, leads to a next state with the surroundings kept and one of the codes of `STATUS`. -/
theorem runCommand_next (w : Command) (s : State) :
    ∃ t, runCommand w s = .next t ∧ KeepsSurroundings s t ∧ t.status.toNat ≤ 6 := by
  cases hd : decode w with
  | error e =>
    exact ⟨_, runCommand_illegal hd s, ⟨rfl, rfl, rfl, rfl, [], (List.append_nil _).symm⟩, Nat.le_refl 6⟩
  | ok i =>
    obtain ⟨t, hx, hend⟩ := exec_ends i s
    obtain ⟨u, hu, hstatus⟩ := exec_status i s
    obtain rfl : u = t := by simpa [hx] using hu.symm
    have hle : u.status.toNat ≤ 5 := hstatus ▸ reportedStatus_le i s
    exact ⟨u, (runCommand_ok hd s).trans hx, hend.keepsSurroundings, Nat.le_succ_of_le hle⟩

/-- A state reset while a command from `s` to `t` ran has the surroundings of `s` (70_reset_and_hazards.md R300). -/
theorem abandon_keepsSurroundings {s t : State} (h : KeepsSurroundings s t) (k : Nat) :
    KeepsSurroundings s (s.abandon t k) := by
  obtain ⟨hin, hlen, hcfg, hhost, hout⟩ := h
  rw [State.abandon]
  split
  · exact ⟨rfl, rfl, rfl, rfl, _, rfl⟩
  · exact ⟨hin, hlen, hcfg, hhost, hout⟩

theorem abandon_status (s t : State) (k : Nat) : (s.abandon t k).status = statusOk := by
  obtain ⟨u, hu⟩ := abandon_resetRegisters s t k
  rw [hu, State.resetRegisters_status]

/-- Everything an action of the host can do: all but a new input buffer keep the surroundings. -/
theorem runEvent_cases (e : HostEvent) (s : State) :
    (∃ t, runEvent e s = .next t ∧ KeepsSurroundings s t ∧ t.status.toNat ≤ 6) ∨
    ∃ bytes, e = .setInput bytes ∧ runEvent e s = loadInput bytes s := by
  cases e with
  | command w => exact .inl (runCommand_next w s)
  | setInput bytes => exact .inr ⟨bytes, rfl, rfl⟩
  | reset => exact .inl ⟨_, rfl, ⟨rfl, rfl, rfl, rfl, [], (List.append_nil _).symm⟩, Nat.zero_le 6⟩
  | resetDuring w k =>
    obtain ⟨t, ht, hkeep, -⟩ := runCommand_next w s
    refine .inl ⟨s.abandon t k, ?_, abandon_keepsSurroundings hkeep k, by rw [abandon_status]; decide⟩
    rw [runEvent, runAbandoned, ht]

theorem loadInput_of_lt {bytes : List Byte} (h : bytes.length < 2 ^ Config.inLenBits) (s : State) :
    loadInput bytes s =
      .next (s.setInput (Memory.writeBytes [] 0 bytes) (BitVec.ofNat Config.inLenBits bytes.length)) :=
  if_pos h

/-- A length that fits `IN_LEN` is held exactly (20_memory.md R50). -/
theorem toNat_ofNat_inLen {n : Nat} (h : n < 2 ^ Config.inLenBits) : (BitVec.ofNat Config.inLenBits n).toNat = n := by
  rw [BitVec.toNat_ofNat, Nat.mod_eq_of_lt h]

/-! ### The invariant -/

/-- The invariant is about `IN`, `IN_LEN` and `STATUS` only. -/
theorem State.Inv.of_input_eq {s t : State} (h : s.Inv) (hin : t.input = s.input) (hlen : t.inLen = s.inLen)
    (hstatus : t.status.toNat ≤ 6) : t.Inv where
  inputCanonical := hin ▸ h.inputCanonical
  inputBelowEnd := by rw [hin, hlen]; exact h.inputBelowEnd
  statusIsCode := hstatus

theorem loadInput_keeps_inv {bytes : List Byte} {s t : State} (h : s.Inv) (ht : loadInput bytes s = .next t) :
    t.Inv := by
  obtain ⟨hlt, rfl⟩ := loadInput_next ht
  refine ⟨Memory.wf_writeBytes rfl 0 bytes, ?_, h.statusIsCode⟩
  rw [State.setInput_inLen, State.setInput_input, toNat_ofNat_inLen hlt]
  exact Memory.below_writeBytes rfl 0 bytes (Nat.zero_add _).le

theorem runEvent_keeps_inv {e : HostEvent} {s t : State} (h : s.Inv) (ht : runEvent e s = .next t) : t.Inv := by
  rcases runEvent_cases e s with ⟨u, hu, hkeep, hstatus⟩ | ⟨bytes, -, hload⟩
  · obtain rfl : u = t := by simpa [hu] using ht
    exact h.of_input_eq hkeep.input hkeep.inLen hstatus
  · exact loadInput_keeps_inv h (hload ▸ ht)

/-- Settles O42: an idle step changes nothing, a new input buffer is loaded in canonical form (`loadInput_keeps_inv`),
and every other action keeps `IN` and leaves a code in `STATUS` (`runEvent_cases`). -/
theorem stepKeepsInvariant : Obligations.StepKeepsInvariant := by
  intro s t h ht
  cases hs : s.host with
  | nil =>
    obtain rfl : s = t := by simpa [step_idle hs] using ht
    exact h
  | cons e es =>
    rw [step_event hs] at ht
    have h' : (s.setHost es).Inv := h.of_input_eq rfl rfl h.statusIsCode
    exact runEvent_keeps_inv h' ht

/-- Settles O43: the empty buffer is canonical, and the code is 0. -/
theorem resetMeetsInvariant : Obligations.ResetMeetsInvariant :=
  ⟨by decide, by decide, by decide⟩

/-! ### No stop, and no byte taken back -/

/-- A legal step answers a next state, and `OUT` has at most grown. -/
theorem step_next {s : State} (h : s.hostLegal) : ∃ t, step s = .next t ∧ ∃ bs, t.out = s.out ++ bs := by
  cases hs : s.host with
  | nil => exact ⟨s, step_idle hs, [], (List.append_nil _).symm⟩
  | cons e es =>
    rw [step_event hs]
    rcases runEvent_cases e (s.setHost es) with ⟨t, ht, hkeep, -⟩ | ⟨bytes, rfl, hload⟩
    · exact ⟨t, ht, hkeep.out⟩
    · exact ⟨_, hload.trans (loadInput_of_lt (h bytes es hs) _), [], (List.append_nil _).symm⟩

/-- Settles O36: `exec_ends` has no end that is a fault or a refusal, and `step_next` carries it to every step. -/
theorem noCommandReadsBeyondInput : Obligations.NoCommandReadsBeyondInput := by
  refine ⟨fun i s => ?_, fun s h => ?_⟩
  · obtain ⟨t, hx, -⟩ := exec_ends i s
    exact ⟨t, hx⟩
  · obtain ⟨t, ht, -⟩ := step_next h
    exact ⟨t, ht⟩

/-- The commands that never call `Emit` make no pre-check and have no output. -/
theorem commandOutput_of_silent {i : Instr}
    (hi : i ∈ [.clr, .crcInit, .crcGet, .crc32, .adlInit, .adlGet, .adler32] ∨ (∃ d, i = .crcUpd d) ∨
      (∃ d, i = .adlUpd d) ∨ (∃ w, i = .setW w) ∨ (∃ h, i = .setH h) ∨ ∃ f, i = .setA f) (s : State) :
    commandError i s = none ∧ commandOutput i s = [] := by
  simp only [List.mem_cons, List.not_mem_nil, or_false] at hi
  rcases hi with (rfl | rfl | rfl | rfl | rfl | rfl | rfl) | ⟨d, rfl⟩ | ⟨d, rfl⟩ | ⟨w, rfl⟩ | ⟨h, rfl⟩ | ⟨f, rfl⟩ <;>
    exact ⟨rfl, rfl⟩

/-- A command without output completes, and asks nothing of the sink. -/
theorem exec_of_no_output {i : Instr} {s : State} (hn : commandError i s = none) (ho : commandOutput i s = []) :
    ∃ t, exec i s = .next t ∧ t.out = s.out ∧ t.sink = s.sink ∧ t.status = 0 := by
  obtain ⟨t, hx, hout, hsink, hstatus⟩ := exec_accepted hn (by rw [ho]; rfl)
  rw [ho, List.append_nil] at hout
  rw [ho, List.length_nil, Sink.drop_zero] at hsink
  exact ⟨t, hx, hout, hsink, hstatus⟩

/-- Settles O40: `step_next` for every step, the two actions that only set registers or `IN`, and the commands without
output (`exec_of_no_output`). -/
theorem outputOnlyGrows : Obligations.OutputOnlyGrows := by
  refine ⟨fun s h => step_next h, fun s e es hs he => ?_, fun i s hi => ?_⟩
  · rcases he with rfl | ⟨bytes, rfl, hlt⟩
    · exact ⟨_, step_reset hs, rfl, rfl⟩
    · exact ⟨_, (step_event hs).trans (loadInput_of_lt hlt _), rfl, rfl⟩
  · obtain ⟨hn, ho⟩ := commandOutput_of_silent hi s
    exact exec_of_no_output hn ho

/-! ### What the output depends on (45_encode_driver.md section 3) -/

section
variable {s s' : State} (hw : s.width = s'.width) (hh : s.height = s'.height) (hf : s.alpha = s'.alpha)
  (hin : s.inBytes = s'.inBytes)
include hw hh hf hin

theorem commandOutput_congr (i : Instr) : commandOutput i s = commandOutput i s' := by
  cases i <;> simp only [commandOutput, hw, hh, hf, hin]

/-- The pre-checks read the configuration, `IN_LEN` and the parameters. -/
theorem commandError_congr (hcfg : s.cfg = s'.cfg) (i : Instr) : commandError i s = commandError i s' := by
  have hlen : s.inLen.toNat = s'.inLen.toNat := by rw [← State.length_inBytes, hin, State.length_inBytes]
  cases i <;> simp only [commandError, payloadError, dimensionError, imageError, hw, hh, hf, hlen, hcfg]

end

/-- The bytes a command appends are fixed by its pre-checks, its output and the sink, and so is its `STATUS`. -/
theorem exec_appends_same {i : Instr} {s s' : State} (he : commandError i s = commandError i s')
    (ho : commandOutput i s = commandOutput i s') (hk : s.sink = s'.sink) :
    ∃ t t' bs, exec i s = .next t ∧ exec i s' = .next t' ∧
      t.out = s.out ++ bs ∧ t'.out = s'.out ++ bs ∧ t.status = t'.status := by
  cases hc : commandError i s with
  | some e =>
    exact ⟨_, _, [], exec_of_commandError hc, exec_of_commandError (he ▸ hc), (List.append_nil _).symm,
      (List.append_nil _).symm, rfl⟩
  | none =>
    have hc' := he ▸ hc
    rcases Sink.accepts_or_refusesAfter (commandOutput i s).length s.sink with ha | ⟨k, hlt, hr⟩
    · obtain ⟨t, hx, hout, -, hstatus⟩ := exec_accepted hc ha
      obtain ⟨t', hx', hout', -, hstatus'⟩ := exec_accepted hc' (ho ▸ hk ▸ ha)
      exact ⟨t, t', commandOutput i s, hx, hx', hout, ho ▸ hout', hstatus.trans hstatus'.symm⟩
    · obtain ⟨c, a, b, n, hx⟩ := exec_refused hc hlt hr
      obtain ⟨c', a', b', n', hx'⟩ := exec_refused hc' (ho ▸ hlt) (hk ▸ hr)
      exact ⟨_, _, (commandOutput i s).take k, hx, hx', rfl, by rw [ho], rfl⟩

/-- Settles O41: neither the pre-checks nor the output of a command read the accumulators, `RES`, `STATUS` or `OUT`
(`commandError_congr`, `commandOutput_congr`). -/
theorem outputDependsOnInputsOnly : Obligations.OutputDependsOnInputsOnly := fun i _ _ hw hh hf hin hk hcfg =>
  exec_appends_same (commandError_congr hw hh hf hin hcfg i) (commandOutput_congr hw hh hf hin i) hk

end Sys2Proof.Machine
end

section
/-! PROOFS. Which registers a command leaves as they were (10_state.md R20), and the range of the Adler sums (R22). -/

namespace Sys2Proof.Machine

/-! ### The configuration registers -/

theorem completedState_width {i : Instr} (hi : ∀ w, i ≠ .setW w) (hc : i ≠ .clr) (s : State) :
    (completedState i s).width = s.width := by
  cases i with
  | setW w => exact absurd rfl (hi w)
  | clr => exact absurd rfl hc
  | _ => rfl

theorem completedState_height {i : Instr} (hi : ∀ h, i ≠ .setH h) (hc : i ≠ .clr) (s : State) :
    (completedState i s).height = s.height := by
  cases i with
  | setH h => exact absurd rfl (hi h)
  | clr => exact absurd rfl hc
  | _ => rfl

theorem completedState_alpha {i : Instr} (hi : ∀ f, i ≠ .setA f) (hc : i ≠ .clr) (s : State) :
    (completedState i s).alpha = s.alpha := by
  cases i with
  | setA f => exact absurd rfl (hi f)
  | clr => exact absurd rfl hc
  | _ => rfl

/-- No error touches the configuration, so it is as the completed command leaves it or as before. -/
theorem EndsIn.config {i : Instr} {s t : State} (h : EndsIn i s t) :
    (t.width = s.width ∧ t.height = s.height ∧ t.alpha = s.alpha) ∨
    (t.width = (completedState i s).width ∧ t.height = (completedState i s).height ∧
      t.alpha = (completedState i s).alpha) := by
  cases h with
  | rejected he => exact .inl ⟨rfl, rfl, rfl⟩
  | completed hn ha => exact .inr ⟨rfl, rfl, rfl⟩
  | failed hn hk hr => exact .inl ⟨rfl, rfl, rfl⟩

/-! ### The accumulators -/

/-- Unless the sink failed, the accumulators are as the completed command leaves them or as before. -/
theorem EndsIn.accumulators {i : Instr} {s t : State} (h : EndsIn i s t) (hs : t.status ≠ 4) :
    (t.crc = s.crc ∧ t.a = s.a ∧ t.b = s.b) ∨
    (t.crc = (completedState i s).crc ∧ t.a = (completedState i s).a ∧ t.b = (completedState i s).b) := by
  cases h with
  | rejected he => exact .inl ⟨rfl, rfl, rfl⟩
  | completed hn ha => exact .inr ⟨rfl, rfl, rfl⟩
  | failed hn hk hr => exact absurd rfl hs

/-- The commands that 10_state.md R20 does not list as writers of `crc`. -/
theorem completedState_crc {i : Instr}
    (hi : i ∈ [.adlInit, .adlGet, .adler32, .crcGet, .sig] ∨ (∃ d, i = .adlUpd d) ∨ (∃ w, i = .setW w) ∨
      (∃ h, i = .setH h) ∨ ∃ f, i = .setA f) (s : State) : (completedState i s).crc = s.crc := by
  simp only [List.mem_cons, List.not_mem_nil, or_false] at hi
  rcases hi with (rfl | rfl | rfl | rfl | rfl) | ⟨d, rfl⟩ | ⟨w, rfl⟩ | ⟨h, rfl⟩ | ⟨f, rfl⟩ <;> rfl

/-- The commands that 10_state.md R20 does not list as writers of `a` and `b`. -/
theorem completedState_sums {i : Instr}
    (hi : i ∈ [.crcInit, .crcGet, .crc32, .adlGet, .sig, .ihdr, .iend] ∨ (∃ d, i = .crcUpd d) ∨
      (∃ v, i = .wrB v) ∨ (∃ v, i = .wrU16le v) ∨ (∃ v, i = .wrU32be v) ∨ (∃ tag, i = .chunk tag) ∨
      (∃ w, i = .setW w) ∨ (∃ h, i = .setH h) ∨ ∃ f, i = .setA f) (s : State) :
    (completedState i s).a = s.a ∧ (completedState i s).b = s.b := by
  simp only [List.mem_cons, List.not_mem_nil, or_false] at hi
  rcases hi with (rfl | rfl | rfl | rfl | rfl | rfl | rfl) | ⟨d, rfl⟩ | ⟨v, rfl⟩ | ⟨v, rfl⟩ | ⟨v, rfl⟩ |
    ⟨tag, rfl⟩ | ⟨w, rfl⟩ | ⟨h, rfl⟩ | ⟨f, rfl⟩ <;> exact ⟨rfl, rfl⟩

/-- Settles O39: every end of a command (`exec_ends`) has each register as before or as the completed command leaves
it, and the surroundings kept. -/
theorem registerFrameOfEveryCommand : Obligations.RegisterFrameOfEveryCommand := by
  intro i s
  obtain ⟨t, hx, hend⟩ := exec_ends i s
  have hkeep := hend.keepsSurroundings
  refine ⟨t, hx, fun hi hc => ?_, fun hi hc => ?_, fun hi hc => ?_, fun hs hi => ?_, fun hs hi => ?_,
    hkeep.input, hkeep.inLen, hkeep.readIn, hkeep.cfg, hkeep.host⟩
  · rcases hend.config with ⟨h, -⟩ | ⟨h, -⟩
    · exact h
    · exact h.trans (completedState_width hi hc s)
  · rcases hend.config with ⟨-, h, -⟩ | ⟨-, h, -⟩
    · exact h
    · exact h.trans (completedState_height hi hc s)
  · rcases hend.config with ⟨-, -, h⟩ | ⟨-, -, h⟩
    · exact h
    · exact h.trans (completedState_alpha hi hc s)
  · rcases hend.accumulators hs with ⟨h, -⟩ | ⟨h, -⟩
    · exact h
    · exact h.trans (completedState_crc hi s)
  · obtain ⟨ea, eb⟩ := completedState_sums hi s
    rcases hend.accumulators hs with ⟨-, h⟩ | ⟨-, ha, hb⟩
    · exact h
    · exact ⟨ha.trans ea, hb.trans eb⟩

/-! ### The range of the Adler sums (10_state.md R22) -/

theorem adlerInit_le : adlerInitA.toNat ≤ 65520 ∧ adlerInitB.toNat ≤ 65520 := by decide

/-- Each writer of the sums starts them afresh or takes a step, which reduces them. -/
theorem completedState_adler_le {s : State} (h : s.a.toNat ≤ 65520 ∧ s.b.toNat ≤ 65520) (i : Instr) :
    (completedState i s).a.toNat ≤ 65520 ∧ (completedState i s).b.toNat ≤ 65520 := by
  cases i with
  | clr | adlInit => exact adlerInit_le
  | adlUpd d | wrD d => exact adlerStep_le (s.a, s.b) d
  | adler32 | idat | encode => exact adlerFold_le adlerInit_le _
  | setW | setH | setA | crcInit | crcUpd | crcGet | crc32 | adlGet | wrB | wrU16le | wrU32be | chunk | sig | ihdr
  | iend => exact h

/-- Settles O16: unless the sink failed, the sums are those before or those of the completed command. -/
theorem adlerSumsStayReduced : Obligations.AdlerSumsStayReduced := by
  intro i s ha hb
  obtain ⟨t, hx, hend⟩ := exec_ends i s
  refine ⟨t, hx, fun hs => ?_⟩
  rcases hend.accumulators hs with ⟨-, ea, eb⟩ | ⟨-, ea, eb⟩ <;> rw [ea, eb]
  · exact ⟨ha, hb⟩
  · exact completedState_adler_le ⟨ha, hb⟩ i

end Sys2Proof.Machine
end

section
/-! PROOFS. The fields of whatever chunk a framing command appended (43_chunk_framer.md R180), the exact expected length
(44_idat_deflate.md R201), and two `ENCODE`s in a row (20_memory.md R60). -/

namespace Sys2Proof.Machine

/-! ### Length first, CRC last (43_chunk_framer.md section 3) -/

theorem StandsAt.eq_drop {off : Nat} {x l : List Byte} (h : StandsAt off x l) (hl : l.length = off + x.length) :
    l.drop off = x :=
  (List.IsPrefix.eq_of_length h (by rw [List.length_drop, hl, Nat.add_sub_cancel_left])).symm

/-- What a framing command writes is a chunk, whose payload is no longer than its length field can say. -/
theorem commandOutput_eq_chunk {i : Instr} {s : State}
    (hi : (∃ tag, i = .chunk tag) ∨ i = .ihdr ∨ i = .idat ∨ i = .iend) (hn : commandError i s = none) :
    ∃ tag p, commandOutput i s = chunkBytes tag p ∧ p.length < 2 ^ 32 := by
  rcases hi with ⟨tag, rfl⟩ | rfl | rfl | rfl
  · refine ⟨tag, s.inBytes, rfl, ?_⟩
    have hle : ¬s.inLen.toNat > s.cfg.maxChunkLen.toNat := fun hgt => nomatch hn.symm.trans (payloadError_of_gt hgt)
    rw [State.length_inBytes]
    exact lt_of_le_of_lt (Nat.not_lt.mp hle) s.cfg.maxChunkLen.isLt
  · exact ⟨tagIHDR, _, rfl, by rw [length_ihdrPayload]; decide⟩
  · obtain ⟨-, -, hl, -, hle⟩ := image_facts hn
    refine ⟨tagIDAT, _, rfl, ?_⟩
    rw [length_idatPayload ((State.length_inBytes s).trans hl)]
    exact lt_of_le_of_lt hle s.cfg.maxChunkLen.isLt
  · exact ⟨tagIEND, [], rfl, by decide⟩

/-- The fields of a chunk, found from its own length. -/
theorem chunkBytes_fields (tag : Word) (p : List Byte) :
    let d := chunkBytes tag p
    d.take 4 = be32 (BitVec.ofNat 32 (d.length - 12)) ∧
      d.drop (d.length - 4) = be32 (crc32 ((d.drop 4).take (d.length - 8))) := by
  have hlen := length_chunkBytes tag p
  have hcovered : ((chunkBytes tag p).drop 4).take ((chunkBytes tag p).length - 8) = be32 tag ++ p :=
    (standsAt_chunkTagPayload tag p).take_drop (by rw [List.length_append, length_be32, hlen]; omega)
  have hcrc := (standsAt_chunkCrc tag p).eq_drop (by rw [hlen, length_be32]; omega)
  have hend : (chunkBytes tag p).length - 4 = 8 + p.length := by omega
  have hpayload : (chunkBytes tag p).length - 12 = p.length := by omega
  refine ⟨?_, ?_⟩
  · rw [hpayload]
    exact (standsAt_chunkLength tag p).take_drop (length_be32 _)
  · rw [hcovered, hend, hcrc]

/-- No error reports `OK` (10_state.md R24). -/
theorem code_ne_zero (e : ErrorKind) : e.code ≠ 0 := by
  cases e <;> decide

/-- A command that reports `OK` has passed its pre-checks and appended its whole output. -/
theorem EndsIn.of_status_ok {i : Instr} {s t : State} (h : EndsIn i s t) (hs : t.status = 0) :
    commandError i s = none ∧ t.out = s.out ++ commandOutput i s := by
  cases h with
  | rejected he => exact absurd hs (code_ne_zero _)
  | completed hn ha => exact ⟨hn, completedState_out i s⟩
  | failed hn hk hr => exact absurd hs (code_ne_zero .sinkWriteFailure)

/-- Settles O25: with `STATUS` 0 the bytes appended are a chunk (`commandOutput_eq_chunk`), and its fields are where
`chunkBytes_fields` says. -/
theorem framedChunksCarryLengthAndCrc : Obligations.FramedChunksCarryLengthAndCrc := by
  intro i s hi
  obtain ⟨t, hx, hend⟩ := exec_ends i s
  refine ⟨t, hx, fun hs => ?_⟩
  obtain ⟨hn, hout⟩ := hend.of_status_ok hs
  obtain ⟨tag, p, hchunk, hp⟩ := commandOutput_eq_chunk hi hn
  obtain ⟨hlength, hcrc⟩ := chunkBytes_fields tag p
  have hlen := length_chunkBytes tag p
  rw [hchunk] at hout
  have hd : t.out.drop s.out.length = chunkBytes tag p := by rw [hout, List.drop_left]
  rw [hd]
  exact ⟨by omega, hout, hlength, by omega, hcrc⟩

/-! ### The expected length (00_scope.md R9, 44_idat_deflate.md R201) -/

/-- Settles O28: the product is compared as a natural number, and `IN_LEN` is below 2^64. -/
theorem expectedLengthNeverWraps : Obligations.ExpectedLengthNeverWraps := by
  intro i s hi hw hh hbig
  have hne : s.inLen.toNat ≠ expectLen s.width s.height s.alpha := (lt_of_lt_of_le s.inLen.isLt hbig).ne
  exact exec_of_imageError hi (imageError_of_length_ne hw hh hne)

/-! ### Two files in a row (20_memory.md R60) -/

/-- An `ENCODE` after earlier writes appends the same file: no write changes what the file is made of. -/
theorem step_encode_afterWriting {s : State} {is : List Instr} {es : List HostEvent} {bs : List Byte} {c : Word}
    {q : Word × Word} (hn : imageError s = none)
    (ha : Sink.accepts (bs ++ pngFile s.width s.height s.alpha s.inBytes).length s.sink = true) :
    step (s.afterWriting (issueAll (.encode :: is) ++ es) bs c q) = .next (s.afterWriting (issueAll is ++ es)
      (bs ++ pngFile s.width s.height s.alpha s.inBytes) 0x51BD9F7D
      (adlerFold (adlerInitA, adlerInitB) (uncompressed s.width s.height s.alpha s.inBytes))) := by
  have hn' := (commandError_afterWriting s (issueAll is ++ es) bs c q .encode).trans hn
  have hw := writes_encodeBody _ (inLen_eq_expectLen hn')
  simp only [afterWriting_width, afterWriting_height, afterWriting_alpha, afterWriting_inBytes] at hw
  exact step_afterWriting (complete_checked_none hn' _ _) hw ha

/-- Settles O34: the first `ENCODE` appends the file, and the second the same file after it
(`step_encode_afterWriting`). -/
theorem encodeTwiceAppendsTwice : Obligations.EncodeTwiceAppendsTwice := by
  intro s es hs hn ha
  rw [← length_pngFile_inBytes hn, Nat.two_mul] at ha
  have hfirst := step_issued_writes (is := [.encode]) hs (complete_checked_none hn _ _)
    (writes_encodeBody _ (inLen_eq_expectLen hn)) ((Sink.accepts_add ..).mp ha).1
  rw [← List.length_append] at ha
  exact ⟨_, _, _, hfirst, step_encode_afterWriting (is := []) hn ha, rfl, (List.append_assoc ..).symm, rfl, rfl⟩

end Sys2Proof.Machine
end

section
/-! PROOFS. The host port: a command word (00_scope.md R11), a new input buffer (20_memory.md R50), and a hardware reset
during a command (70_reset_and_hazards.md R300, log 12). -/

namespace Sys2Proof.Machine

/-! ### A command word, and no action at all -/

/-- `withFetchWord` puts the word itself at the head of the host's actions (log 2). -/
theorem withFetchWord_host (s : State) (w : Command) :
    (s.withFetchWord 40 w.toNat).host = .command w :: s.host := by
  have hw : BitVec.ofNat 40 (w.toNat % 2 ^ 40) = w := by
    rw [Nat.mod_eq_of_lt w.isLt, BitVec.ofNat_toNat, BitVec.setWidth_eq]
  rw [State.withFetchWord, State.issue, State.setHost_host, hw]

theorem step_command {s : State} {w : Command} {es : List HostEvent} {i : Instr} (hs : s.host = .command w :: es)
    (hd : decode w = .ok i) : step s = exec i (s.setHost es) :=
  (step_event hs).trans (runCommand_ok hd _)

/-- Settles O44: taking the placed word off the host's actions again gives the state before it. -/
theorem stepRunsTheDecodedCommand : Obligations.StepRunsTheDecodedCommand :=
  ⟨fun _ _ _ _ hs hd => step_command hs hd, fun s w _ hd => step_command (withFetchWord_host s w) hd⟩

/-- Settles O48: a step takes its work from the host's actions alone. -/
theorem idleBlockKeepsItsState : Obligations.IdleBlockKeepsItsState := fun _ hs => step_idle hs

/-! ### A new input buffer -/

/-- A loaded buffer reads back at every offset below its length and nowhere else. -/
theorem readIn_setInput_writeBytes {bytes : List Byte} (h : bytes.length < 2 ^ Config.inLenBits) (s : State)
    (off : Nat) :
    (s.setInput (Memory.writeBytes [] 0 bytes) (BitVec.ofNat Config.inLenBits bytes.length)).readIn off =
      bytes[off]? := by
  rw [State.readIn, State.setInput_inLen, State.setInput_input, toNat_ofNat_inLen h, Memory.read_writeBytes rfl]
  by_cases hoff : off < bytes.length <;> simp [hoff]

/-- Settles O46: the memory is the canonical one that `loadInput` builds. -/
theorem newInputBufferReadsBack : Obligations.NewInputBufferReadsBack := fun s bytes _ hs hlt =>
  ⟨Memory.writeBytes [] 0 bytes, (step_event hs).trans (loadInput_of_lt hlt _), Memory.wf_writeBytes rfl 0 bytes,
    readIn_setInput_writeBytes hlt s⟩

/-! ### A hardware reset during a command -/

/-- The output of a command that a pre-check may stop: all of it, or nothing. -/
def fullOutput (i : Instr) (s : State) : List Byte := if commandError i s = none then commandOutput i s else []

theorem fullOutput_of_none {i : Instr} {s : State} (h : commandError i s = none) :
    fullOutput i s = commandOutput i s :=
  if_pos h

theorem fullOutput_of_some {i : Instr} {s : State} {e : ErrorKind} (h : commandError i s = some e) :
    fullOutput i s = [] :=
  if_neg (by rw [h]; exact nofun)

/-- The host's coming actions are no input of a command. -/
theorem fullOutput_setHost (i : Instr) (s : State) (es : List HostEvent) :
    fullOutput i (s.setHost es) = fullOutput i s := by
  have he := commandError_congr (s := s.setHost es) (s' := s) rfl rfl rfl rfl rfl i
  have ho := commandOutput_congr (s := s.setHost es) (s' := s) rfl rfl rfl rfl i
  rw [fullOutput, fullOutput, he, ho]

/-- `s` reset after `n` answers of the sink that appended `bs`. -/
def State.resetAfter (s : State) (bs : List Byte) (n : Nat) : State :=
  ((s.setOut (s.out ++ bs)).setSink (s.sink.drop n)).resetRegisters

/-- A reset that comes while the command still has bytes to append, or as it appends its last (93 U12). -/
theorem abandon_within {s t : State} {bs : List Byte} {k : Nat} (ho : t.out = s.out ++ bs) (hk : k ≤ bs.length) :
    s.abandon t k = s.resetAfter (bs.take k) k := by
  rw [State.abandon, ho, List.drop_left, if_pos hk]
  rfl

/-- A reset after the command's end (log 12). -/
theorem abandon_beyond {s t : State} {bs : List Byte} {k : Nat} (ho : t.out = s.out ++ bs) (hk : bs.length < k) :
    s.abandon t k = t.resetRegisters := by
  rw [State.abandon, ho, List.drop_left, if_neg (Nat.not_le.mpr hk)]

/-- States that differ in registers alone are the same after a reset. -/
theorem RegistersOnly.resetRegisters_eq {s t : State} (h : RegistersOnly s t) :
    t.resetRegisters = s.resetRegisters := by
  obtain ⟨hin, hlen, hout, hsink, hhost, hcfg, hdraws⟩ := h
  simp only [State.resetRegisters, hin, hlen, hout, hsink, hhost, hcfg, hdraws]

theorem resetAfter_nil (s : State) : s.resetAfter [] 0 = s.resetRegisters := by
  rw [State.resetAfter, List.append_nil]
  rfl

/-- A reset during a command that appends nothing. -/
theorem abandon_of_registersOnly {s t : State} (h : RegistersOnly s t) (k : Nat) :
    s.abandon t k = s.resetRegisters := by
  have ho : t.out = s.out ++ [] := h.out.trans (List.append_nil _).symm
  cases k with
  | zero => exact (abandon_within ho (Nat.zero_le _)).trans (resetAfter_nil s)
  | succ k => exact (abandon_beyond ho (Nat.succ_pos k)).trans h.resetRegisters_eq

/-- A command whose output the sink accepts: the bytes it appended, and what a reset then makes of its end. -/
theorem exec_whole {i : Instr} {s : State} (ha : Sink.accepts (fullOutput i s).length s.sink = true) :
    ∃ t, exec i s = .next t ∧ t.out = s.out ++ fullOutput i s ∧
      t.resetRegisters = s.resetAfter (fullOutput i s) (fullOutput i s).length := by
  rcases exec_cases i s with ⟨e, he, -, hx⟩ | ⟨hn, p, c, q, hx, hw⟩ | ⟨hn, ho, t, hx, hr, -⟩
  · rw [fullOutput_of_some he]
    exact ⟨_, hx, (List.append_nil _).symm, (resetAfter_nil s).symm⟩
  · rw [fullOutput_of_none hn] at ha ⊢
    exact ⟨_, hx.trans (hw.complete_accepted ha), rfl, rfl⟩
  · rw [fullOutput_of_none hn, ho]
    exact ⟨t, hx, hr.out.trans (List.append_nil _).symm, hr.resetRegisters_eq.trans (resetAfter_nil s).symm⟩

/-- A command that the sink refuses within its output has passed its pre-checks. -/
theorem exec_refused_fullOutput {i : Instr} {s : State} {m : Nat} (hm : m < (fullOutput i s).length)
    (hr : Sink.refusesAfter m s.sink = true) : SinkFailed s ((fullOutput i s).take m) (exec i s) := by
  cases h : commandError i s with
  | some e =>
    rw [fullOutput_of_some h] at hm
    exact absurd hm (Nat.not_lt_zero m)
  | none =>
    rw [fullOutput_of_none h] at hm ⊢
    exact exec_refused h hm hr

/-- A command whose first `k` bytes the sink accepts appends at least those. -/
theorem exec_appends_at_least {i : Instr} {s : State} {k : Nat} (hk : k ≤ (fullOutput i s).length)
    (ha : Sink.accepts k s.sink = true) :
    ∃ t m, exec i s = .next t ∧ t.out = s.out ++ (fullOutput i s).take m ∧ k ≤ m := by
  rcases Sink.accepts_or_refusesAfter (fullOutput i s).length s.sink with hall | ⟨m, hm, hr⟩
  · obtain ⟨t, hx, hout, -⟩ := exec_whole hall
    exact ⟨t, _, hx, by rw [hout, List.take_length], hk⟩
  · obtain ⟨c, a, b, n, hx⟩ := exec_refused_fullOutput hm hr
    refine ⟨_, m, hx, rfl, Nat.not_lt.mp fun hmk => ?_⟩
    rw [Sink.accepts_eq_false_of_refusesAfter hmk hr] at ha
    exact absurd ha nofun

section
variable {w : Command} {i : Instr} {s : State} {k : Nat} (hd : decode w = .ok i)
include hd

theorem runAbandoned_of_exec {t : State} (hx : exec i s = .next t) :
    runAbandoned w k s = .next (s.abandon t k) := by
  rw [runAbandoned, runCommand_ok hd, hx]

/-- The sink accepts what the command appends until the reset, or until its end if that comes first. -/
theorem runAbandoned_accepted (ha : Sink.accepts (min k (fullOutput i s).length) s.sink = true) :
    runAbandoned w k s = .next (s.resetAfter ((fullOutput i s).take k) (min k (fullOutput i s).length)) := by
  rcases Nat.lt_or_ge (fullOutput i s).length k with hlt | hle
  · rw [Nat.min_eq_right hlt.le] at ha ⊢
    obtain ⟨t, hx, hout, hreset⟩ := exec_whole ha
    rw [runAbandoned_of_exec hd hx, abandon_beyond hout hlt, hreset, List.take_of_length_le hlt.le]
  · rw [Nat.min_eq_left hle] at ha ⊢
    obtain ⟨t, m, hx, hout, hkm⟩ := exec_appends_at_least hle ha
    have hk : k ≤ ((fullOutput i s).take m).length := by rw [List.length_take]; exact le_min hkm hle
    rw [runAbandoned_of_exec hd hx, abandon_within hout hk, List.take_take, Nat.min_eq_left hkm]

/-- The sink refuses a byte before the reset comes: the command is over, and is reset at its end (log 12). -/
theorem runAbandoned_refused {m : Nat} (hm : m < min k (fullOutput i s).length)
    (hr : Sink.refusesAfter m s.sink = true) :
    ∃ n, runAbandoned w k s = .next { s.resetAfter ((fullOutput i s).take m) (m + 1) with draws := n } := by
  obtain ⟨hmk, hmn⟩ := lt_min_iff.mp hm
  obtain ⟨c, a, b, n, hx⟩ := exec_refused_fullOutput hmn hr
  have hlen : ((fullOutput i s).take m).length = m := by rw [List.length_take, Nat.min_eq_left hmn.le]
  rw [hlen] at hx
  refine ⟨n, ?_⟩
  rw [runAbandoned_of_exec hd hx, abandon_beyond rfl (hlen.symm ▸ hmk)]
  rfl

end

/-- An illegal word appends nothing, so the reset leaves the registers alone changed. -/
theorem runAbandoned_illegal {w : Command} (hw : ∀ i, decode w ≠ .ok i) (k : Nat) (s : State) :
    runAbandoned w k s = .next s.resetRegisters := by
  cases hd : decode w with
  | ok i => exact absurd hd (hw i)
  | error e =>
    have hreg : RegistersOnly s (s.setStatus ErrorKind.illegalCommand.code) := ⟨rfl, rfl, rfl, rfl, rfl, rfl, rfl⟩
    rw [runAbandoned, runCommand_illegal hd, ← abandon_of_registersOnly hreg k]

/-- Settles O47: between commands `step_reset`; during one, the three ways a command can stand when the reset comes. -/
theorem resetDuringCommandKeepsPrefix : Obligations.ResetDuringCommandKeepsPrefix := by
  refine ⟨fun s es hs => step_reset hs, fun s w k es hs hw => (step_event hs).trans (runAbandoned_illegal hw k _),
    fun s w k es i hs hd => ?_⟩
  have hstep : step s = runAbandoned w k (s.setHost es) := step_event hs
  have hfull : (if commandError i s = none then commandOutput i s else []) = fullOutput i (s.setHost es) :=
    (fullOutput_setHost i s es).symm
  simp only [hfull, hstep]
  exact ⟨fun ha => runAbandoned_accepted hd ha, fun m hm hr => runAbandoned_refused hd hm hr⟩

end Sys2Proof.Machine
end

section
/-! PROOFS. The opcode map (30_encoding.md R101): every word that a row selects decodes, and to the one command whose
encoding it is. -/

namespace Sys2Proof.Machine

/-- Settles O49: `decode_encodeWord`; the operand types hold the check of R102. -/
theorem decodeInvertsEncode : Obligations.DecodeInvertsEncode := fun i => ⟨wellFormed_all i, decode_encodeWord i⟩

/-! ### From a row to the decoder's arm -/

/-- The row describes the words of a command: its opcode, and as the bits its mask leaves free the command's operand. -/
def RowEncodes (r : TableRow) : Prop :=
  ∃ n mk, EncodedAs (opcodeOf r.pattern) n mk ∧ argumentOf r.mask = BitVec.allOnes 32 <<< n

theorem rowEncodes_configCrc : ∀ r ∈ tableConfigCrc, RowEncodes r := by
  obtain ⟨hclr, hsetW, hsetH, hsetA⟩ := encodedAs_configFamily
  obtain ⟨hinit, hupd, hget, hcrc32⟩ := encodedAs_crcFamily
  simp only [tableConfigCrc, List.forall_mem_cons]
  exact ⟨⟨_, _, hclr, by decide⟩, ⟨_, _, hsetW, by decide⟩, ⟨_, _, hsetH, by decide⟩, ⟨_, _, hsetA, by decide⟩,
    ⟨_, _, hinit, by decide⟩, ⟨_, _, hupd, by decide⟩, ⟨_, _, hget, by decide⟩, ⟨_, _, hcrc32, by decide⟩, nofun⟩

theorem rowEncodes_adlerWriter : ∀ r ∈ tableAdlerWriter, RowEncodes r := by
  obtain ⟨hinit, hupd, hget, hadler32⟩ := encodedAs_adlerFamily
  obtain ⟨hwrB, hwrD, hwrU16le, hwrU32be⟩ := encodedAs_writerFamily
  simp only [tableAdlerWriter, List.forall_mem_cons]
  exact ⟨⟨_, _, hinit, by decide⟩, ⟨_, _, hupd, by decide⟩, ⟨_, _, hget, by decide⟩, ⟨_, _, hadler32, by decide⟩,
    ⟨_, _, hwrB, by decide⟩, ⟨_, _, hwrD, by decide⟩, ⟨_, _, hwrU16le, by decide⟩, ⟨_, _, hwrU32be, by decide⟩, nofun⟩

theorem rowEncodes_framing : ∀ r ∈ tableFraming, RowEncodes r := by
  obtain ⟨hchunk, hsig, hihdr, hiend⟩ := encodedAs_framerFamily
  simp only [tableFraming, List.forall_mem_cons]
  exact ⟨⟨_, _, hchunk, by decide⟩, ⟨_, _, hsig, by decide⟩, ⟨_, _, hihdr, by decide⟩,
    ⟨_, _, encodedAs_idat, by decide⟩, ⟨_, _, hiend, by decide⟩, ⟨_, _, encodedAs_encode, by decide⟩, nofun⟩

theorem rowEncodes_of_mem {r : TableRow} (hr : r ∈ commandTable) : RowEncodes r := by
  rw [commandTable, List.mem_append, List.mem_append] at hr
  rcases hr with (hr | hr) | hr
  · exact rowEncodes_configCrc r hr
  · exact rowEncodes_adlerWriter r hr
  · exact rowEncodes_framing r hr

/-- An argument with no bit from `n` on passes the check on an operand of `n` bits. -/
theorem shift_eq_zero_of_masked {arg : Word} {n : Nat} (h : arg &&& BitVec.allOnes 32 <<< n = 0) : arg >>> n = 0 := by
  apply BitVec.eq_of_getLsbD_eq
  intro i hi
  rw [BitVec.getLsbD_ushiftRight]
  by_cases hlt : n + i < 32
  · have hfree : (BitVec.allOnes 32 <<< n).getLsbD (n + i) = true := by
      rw [BitVec.getLsbD_shiftLeft, BitVec.getLsbD_allOnes]
      simp [hlt, hi]
    have hbit := congrArg (fun v => v.getLsbD (n + i)) h
    rw [BitVec.getLsbD_and, hfree, Bool.and_true] at hbit
    simpa using hbit
  · simpa using BitVec.getLsbD_of_ge arg (n + i) (Nat.not_lt.mp hlt)

theorem decode_of_selected {w : Command} {r : TableRow} (hr : r ∈ commandTable) (h : w &&& r.mask = r.pattern) :
    ∃ i, decode w = .ok i := by
  obtain ⟨n, mk, ⟨hdecode, -⟩, hmask⟩ := rowEncodes_of_mem hr
  have harg : argumentOf w >>> n = 0 :=
    shift_eq_zero_of_masked (hmask ▸ argumentOf_and_mask_of_selected hr h)
  have hok := hdecode ((argumentOf w).setWidth n)
  rw [setWidth_setWidth_of_shift harg, ← opcodeOf_eq_of_selected hr h, commandWord_fields] at hok
  exact ⟨_, hok⟩

/-- Settles O50: `encodeWord_of_decode` for the word of a command, `selected_of_decode` and `decode_of_selected` for the
words that decode. -/
theorem commandWordsAreUnique : Obligations.CommandWordsAreUnique :=
  ⟨fun _ _ h => encodeWord_of_decode h, fun _ =>
    ⟨fun ⟨_, h⟩ => selected_of_decode h, fun ⟨_, hr, h⟩ => decode_of_selected hr h⟩⟩

/-- Settles O51: a row that selects a word has the word's opcode, and a row is known by its opcode. -/
theorem opcodeRowsDoNotOverlap : Obligations.OpcodeRowsDoNotOverlap := fun _ _ hr _ hr' h h' =>
  row_eq_of_opcodeOf_eq hr hr' ((opcodeOf_eq_of_selected hr h).symm.trans (opcodeOf_eq_of_selected hr' h'))

/-- Settles O53: the decoder computed on each of the eight words. -/
theorem writtenOutWordsDecode : Obligations.WrittenOutWordsDecode := by
  unfold Obligations.WrittenOutWordsDecode
  decide

end Sys2Proof.Machine
end

section
/-! PROOFS. The CRC step as a map of the register (40_crc32.md section 3), and the commands of `CRC.OF` (30_encoding.md
R107). -/

namespace Sys2Proof.Machine

/-! ### The step loses nothing (40_crc32.md section 3) -/

/-- The bit shifted out is the top bit of the result: the polynomial has its top bit set and the shift clears it. -/
theorem msb_crcBit (c : Word) : (crcBit c).getLsbD 31 = c.getLsbD 0 := by
  have hpoly : crcPoly.getLsbD 31 = true := by decide
  rw [crcBit, BitVec.getLsbD_xor, BitVec.getLsbD_ushiftRight]
  cases c.getLsbD 0 <;> simp [hpoly]

/-- Equal results come from the same bit shifted out, so from the same remaining bits. -/
theorem crcBit_injective : Function.Injective crcBit := by
  intro x y h
  have hlow : x.getLsbD 0 = y.getLsbD 0 := by rw [← msb_crcBit x, h, msb_crcBit y]
  have hshift : x >>> 1 = y >>> 1 := by
    rw [crcBit, crcBit, hlow] at h
    exact (BitVec.xor_left_inj _).mp h
  apply BitVec.eq_of_getLsbD_eq
  intro i _
  cases i with
  | zero => exact hlow
  | succ i =>
    have hbit := congrArg (fun v => v.getLsbD i) hshift
    simpa only [BitVec.getLsbD_ushiftRight, Nat.add_comm 1 i] using hbit

theorem repeat_crcBit_injective (n : Nat) : Function.Injective (Nat.repeat crcBit n) := by
  induction n with
  | zero => exact Function.injective_id
  | succ n ih => exact crcBit_injective.comp ih

/-- The register and the byte meet by exclusive or, and the eight turns that follow lose nothing. -/
theorem crcStep_inj {c c' : Word} {d e : Byte} (h : crcStep c d = crcStep c' e) :
    c ^^^ d.setWidth 32 = c' ^^^ e.setWidth 32 := by
  rw [nibbleStepEqualsBitSerialStep c d, nibbleStepEqualsBitSerialStep c' e] at h
  exact repeat_crcBit_injective 8 h

/-- Settles O8: `crcStep_inj`, and an injective map of a finite type is a bijection. -/
theorem crcStepIsBijective : Obligations.CrcStepIsBijective := by
  refine ⟨fun d => Finite.injective_iff_bijective.mp fun c c' h => ?_, fun c d e h => ?_⟩
  · exact (BitVec.xor_left_inj _).mp (crcStep_inj h)
  · have hd : d.setWidth 32 = e.setWidth 32 := (BitVec.xor_right_inj _).mp (crcStep_inj h)
    have hback := congrArg (BitVec.setWidth 8) hd
    simpa using hback

/-! ### The commands of `CRC.OF` (30_encoding.md R107) -/

/-- The commands of `CRC.STR` fold their bytes into the register (the command before them ended with `done`). -/
theorem run_crcStr (n : Nat) {s : State} {bs : List Byte} {es : List HostEvent}
    (hs : s.host = issueAll (crcStr bs) ++ es) :
    Sys2Proof.core.run (bs.length + n) s.done =
      Sys2Proof.core.run n ((s.setHost es).setCrc (crcFold s.crc bs)).done := by
  induction bs generalizing s with
  | nil =>
    have hhost : s.host = es := hs
    rw [List.length_nil, Nat.zero_add, ← hhost]
    rfl
  | cons d bs ih =>
    have hstep : step s.done = .next ((s.setHost (issueAll (crcStr bs) ++ es)).foldCrc d).done :=
      step_issued (s := s.done) hs
    rw [List.length_cons, Nat.add_right_comm, core_run_next _ _ _ hstep]
    exact ih rfl

/-- Settles O10: `CRC.INIT` starts the register, `run_crcStr` folds the string, and `CRC.GET` delivers. -/
theorem crcPseudoCommandDeliversCrc : Obligations.CrcPseudoCommandDeliversCrc := by
  intro s bs es hs
  have hrest : issueAll (crcStr bs ++ [.crcGet]) ++ es = issueAll (crcStr bs) ++ (issueAll [.crcGet] ++ es) := by
    rw [issueAll, List.map_append, List.append_assoc]
    rfl
  have hinit : step s = .next ((s.setHost (issueAll (crcStr bs) ++ (issueAll [.crcGet] ++ es))).setCrc crcInit).done :=
    hrest ▸ step_issued hs
  rw [core_run_next (bs.length + 1) _ _ hinit, run_crcStr 1 rfl]
  exact core_run_one (step_issued (i := .crcGet) (is := []) (es := es) rfl)

end Sys2Proof.Machine
end
